-- ==== Sys2Proof/Word.lean ====
section
/-!
DEFINITION. The machine word: `Int64`, the integers from -2^63 to 2^63-1 (00_scope.md R3). No rule looks at its bits
(20_memory.md R35), so every computation goes through the integer `w.toInt` and comes back through `Word.ofZ`.
-/

namespace Sys2Proof

/-- The type the spec writes `Int64` (00_scope.md R3): memory cells, queue elements, `rb`, operands and results. -/
abbrev Word := Int64

/-- `INT_MIN` (00_scope.md R3; the bound is the spec's general-knowledge passage K4). -/
abbrev intMin : Int := -9223372036854775808

/-- `INT_MAX` (00_scope.md R3; K4). -/
abbrev intMax : Int := 9223372036854775807

/-- The integer is one an `Int64` can hold. -/
abbrev InRange (z : Int) : Prop := intMin ≤ z ∧ z ≤ intMax

/-- The word that holds `z`; used on integers that are in range. -/
def Word.ofZ (z : Int) : Word := Int64.ofInt z

end Sys2Proof
end

