-- ==== Sys2Proof/Config.lean ====
section
/-!
DEFINITION. What is fixed for the machine before it runs. The spec leaves two parameters open, MEM_CAPACITY and K
(92_eei_decisions.md, last lines); both are arguments of construction and are held as data in `State`, so that every
statement about all states holds for all their values. The spec leaves no value free, so there is no opaque constant.
-/

namespace Sys2Proof

/-- `CAP` when no capacity is configured: 2^63 (00_scope.md R4). -/
abbrev Config.unboundedCap : Nat := 9223372036854775808

/-- The length in words of the longest instruction (30_encoding.md R50, R56). -/
abbrev Config.maxLength : Nat := 4

end Sys2Proof
end

