-- ==== Sys2Proof/Syntax.lean ====
section
/-!
DEFINITION. The ten instructions and the three parameter modes (30_encoding.md R56, R57). A constructor holds the mode of
each parameter the instruction has. The parameter words themselves are no part of it: the machine reads each slot while
the instruction executes, one parameter completely before the next (30_encoding.md R67 step 4).
-/

namespace Sys2Proof

/-- The parameter mode (30_encoding.md R57). -/
inductive Mode where
  /-- digit 0: the parameter word is an address -/
  | position
  /-- digit 1: the parameter word is the operand itself -/
  | immediate
  /-- digit 2: the parameter word is an offset from `rb` -/
  | relative
  deriving DecidableEq, Repr

/-- One constructor per row of spec/opcode_table.json. -/
inductive Instr where
  /-- opcode 1, `dest = a + b` -/
  | add (m1 m2 m3 : Mode)
  /-- opcode 2, `dest = a * b` -/
  | mul (m1 m2 m3 : Mode)
  /-- opcode 3, `dest = pop_front(input)` -/
  | input (m1 : Mode)
  /-- opcode 4, `push_back(output, a)` -/
  | output (m1 : Mode)
  /-- opcode 5, `ip = b if a != 0 else ip+3` -/
  | jumpIfTrue (m1 m2 : Mode)
  /-- opcode 6, `ip = b if a == 0 else ip+3` -/
  | jumpIfFalse (m1 m2 : Mode)
  /-- opcode 7, `dest = 1 if a < b else 0` -/
  | lessThan (m1 m2 m3 : Mode)
  /-- opcode 8, `dest = 1 if a == b else 0` -/
  | equals (m1 m2 m3 : Mode)
  /-- opcode 9, `relative_base += a` -/
  | adjustRelativeBase (m1 : Mode)
  /-- opcode 99, stop permanently -/
  | halt
  deriving DecidableEq, Repr

end Sys2Proof
end

