-- ==== Sys2Proof/WellFormed.lean ====
section
/-!
DEFINITION. Which decoded instructions are legal: a destination parameter is never Immediate (30_encoding.md R56, R61). The
decoder lets such a word through (R52); dispatch refuses it with InvalidDestinationMode (R67 step 3).
-/

namespace Sys2Proof

/-- The destination parameter of an instruction, its index and its mode (the `d` roles of 30_encoding.md R56). -/
def Instr.destination : Instr → Option (Nat × Mode)
  | .add _ _ m3 => some (3, m3)
  | .mul _ _ m3 => some (3, m3)
  | .input m1 => some (1, m1)
  | .output _ => none
  | .jumpIfTrue _ _ => none
  | .jumpIfFalse _ _ => none
  | .lessThan _ _ m3 => some (3, m3)
  | .equals _ _ m3 => some (3, m3)
  | .adjustRelativeBase _ => none
  | .halt => none

/-- No destination in Immediate mode (30_encoding.md R59, R61). -/
def Instr.wellFormed (i : Instr) : Bool :=
  match i.destination with
  | some (_, m) => decide (m ≠ .immediate)
  | none => true

end Sys2Proof
end

