-- ==== Sys2Proof/Decode.lean ====
section
/-!
DEFINITION. The decoder of an instruction word, by decimal digits (30_encoding.md R51 to R56), then the encoder written from
the same table. The decoder is total: every word gives an instruction or one of the two decode faults.
-/

namespace Sys2Proof

/-- Why a word is no instruction (30_encoding.md R52). -/
inductive DecodeFault where
  /-- `W < 0` or the opcode is not in the set -/
  | invalidOpcode (word : Word)
  /-- mode digit `digit` of parameter `param` is above 2 -/
  | invalidParameterMode (param digit : Nat)
  deriving DecidableEq, Repr

/-- `digit(n, j)`: the decimal digit of weight 10^j (00_scope.md section 5). -/
def digit (n j : Nat) : Nat := n / 10 ^ j % 10

/-- The mode a digit selects (30_encoding.md R52, R57). -/
def Mode.ofDigit : Nat → Option Mode
  | 0 => some .position
  | 1 => some .immediate
  | 2 => some .relative
  | _ => none

/-- The digit of a mode (30_encoding.md R57). -/
def Mode.toDigit : Mode → Nat
  | .position => 0
  | .immediate => 1
  | .relative => 2

/-- The mode of parameter `k` of the word `n`: its digit stands at 10^(k+1) (30_encoding.md R51, R52). -/
def modeOf (n k : Nat) : Except DecodeFault Mode :=
  match Mode.ofDigit (digit n (k + 1)) with
  | some m => .ok m
  | none => .error (.invalidParameterMode k (digit n (k + 1)))

/-- The opcode map (30_encoding.md R56): the instruction an opcode builds from the three modes. -/
def instrForm : Nat → Option (Mode → Mode → Mode → Instr)
  | 1 => some fun m1 m2 m3 => .add m1 m2 m3
  | 2 => some fun m1 m2 m3 => .mul m1 m2 m3
  | 3 => some fun m1 _ _ => .input m1
  | 4 => some fun m1 _ _ => .output m1
  | 5 => some fun m1 m2 _ => .jumpIfTrue m1 m2
  | 6 => some fun m1 m2 _ => .jumpIfFalse m1 m2
  | 7 => some fun m1 m2 m3 => .lessThan m1 m2 m3
  | 8 => some fun m1 m2 m3 => .equals m1 m2 m3
  | 9 => some fun m1 _ _ => .adjustRelativeBase m1
  | 99 => some fun _ _ _ => .halt
  | _ => none

/-- The decoding of a word `w` whose value is the natural number `n`: an unknown opcode first, then the three mode digits of
EVERY opcode in the order 1, 2, 3 (30_encoding.md R52, R55). Digits at 10^5 and above are not looked at (R54). -/
def decodeNat (w : Word) (n : Nat) : Except DecodeFault Instr :=
  match instrForm (n % 100) with
  | none => .error (.invalidOpcode w)
  | some build => do
    let m1 ← modeOf n 1
    let m2 ← modeOf n 2
    let m3 ← modeOf n 3
    .ok (build m1 m2 m3)

/-- `Decode(W)` (30_encoding.md R52): a negative word is no instruction (R53). -/
def decode (w : Word) : Except DecodeFault Instr :=
  if w.toInt < 0 then .error (.invalidOpcode w) else decodeNat w w.toInt.toNat

/-- The opcode value of an instruction (30_encoding.md R56). -/
def Instr.opcode : Instr → Nat
  | .add _ _ _ => 1
  | .mul _ _ _ => 2
  | .input _ => 3
  | .output _ => 4
  | .jumpIfTrue _ _ => 5
  | .jumpIfFalse _ _ => 6
  | .lessThan _ _ _ => 7
  | .equals _ _ _ => 8
  | .adjustRelativeBase _ => 9
  | .halt => 99

/-- The modes of the parameters an instruction has, in order (30_encoding.md R56). -/
def Instr.modes : Instr → List Mode
  | .add m1 m2 m3 => [m1, m2, m3]
  | .mul m1 m2 m3 => [m1, m2, m3]
  | .input m1 => [m1]
  | .output m1 => [m1]
  | .jumpIfTrue m1 m2 => [m1, m2]
  | .jumpIfFalse m1 m2 => [m1, m2]
  | .lessThan m1 m2 m3 => [m1, m2, m3]
  | .equals m1 m2 m3 => [m1, m2, m3]
  | .adjustRelativeBase m1 => [m1]
  | .halt => []

/-- The length in words: the instruction word and its parameters (30_encoding.md R50, R56). -/
def Instr.length (i : Instr) : Nat := i.modes.length + 1

/-- The number made of mode digits, the first at the units place. -/
def digitsOf : List Mode → Nat
  | [] => 0
  | m :: ms => m.toDigit + 10 * digitsOf ms

/-- The instruction word of `i`; digits of absent parameters and above 10^4 are 0 (30_encoding.md R51, R65). -/
def encode (i : Instr) : Word := Word.ofZ (i.opcode + 100 * digitsOf i.modes : Nat)

/-- The words of an instruction with its parameter words, as they lie in memory from `ip` on (30_encoding.md R50). -/
def assemble (i : Instr) (params : List Word) : List Word := encode i :: params

/-- Word `k` of an instruction whose bits are `w`, 64 bits a word, the first word least significant; the bits at and
above `nbits` are 0. The spec numbers no bits: the two's complement layout is the host interface's (log 20). -/
def tableWord (nbits w k : Nat) : Word := Int64.ofBitVec (BitVec.ofNat 64 (w % 2 ^ nbits / 2 ^ (64 * k)))

/-- The instruction the decoder reads from an instruction whose bits are `w`. -/
def decodeTableWord (nbits w : Nat) : Option Instr :=
  match decode (tableWord nbits w 0) with
  | .ok i => some i
  | .error _ => none

end Sys2Proof
end

