-- ==== Sys2Proof/Machine/State.lean ====
section
/-!
DEFINITION. The state of the machine as plain data: everything the spec gives one engine (10_state.md R10), the queues its
Input and Output use (R19), and the orchestrator's engines, queues, latch and status (45_orchestrator.md R130).
-/

namespace Sys2Proof.Machine

/-- The memory of one engine: the non-zero stored cells by address, and `extent` (10_state.md R11, R12). In canonical
form the addresses rise strictly, lie below `extent`, and no listed word is 0 (`Memory.wf` in Ops.lean). -/
structure Memory where
  cells : List (Nat × Word)
  extent : Nat
  deriving DecidableEq, Repr

/-- `st`, the execution state (10_state.md R15). -/
inductive ExecState where
  | ready
  | blockedOnInput
  | halted
  | faulted
  deriving DecidableEq, Repr

/-- A fault's cause with its detail (60_exceptions.md R150, R165). -/
inductive FaultInfo where
  /-- the loader's fault; no engine raises it (60_exceptions.md R151) -/
  | programParseError
  /-- the word is negative or its opcode is not in the set (R152) -/
  | invalidOpcode (word : Word)
  /-- a mode digit above 2: the parameter and the digit (R153) -/
  | invalidParameterMode (param digit : Nat)
  /-- an Immediate destination: the parameter (R154) -/
  | invalidDestinationMode (param : Nat)
  /-- a negative address or a negative taken jump target (R155) -/
  | negativeAddress (addr : Int)
  /-- an address at or above CAP (R156) -/
  | memoryCapacityExceeded (addr : Nat)
  /-- a sum or product outside 64 bits: the exact value (R157) -/
  | arithmeticOverflow (value : Int)
  deriving DecidableEq, Repr

/-- `flt`, the fault record: cause and detail, `fault_ip`, and the raw word if the fetch succeeded (10_state.md R16). -/
structure FaultRecord where
  info : FaultInfo
  faultIp : Nat
  word : Option Word
  deriving DecidableEq, Repr

/-- One engine: exactly the state of 10_state.md R10, and the parameter MEM_CAPACITY fixed at construction. -/
structure Engine where
  mem : Memory
  memCapacity : Option Nat
  ip : Nat
  rb : Word
  st : ExecState
  flt : Option FaultRecord
  deriving DecidableEq, Repr

/-- An engine and the queue its Input instructions pop, front first (10_state.md R19; `Q[i]` of 45_orchestrator.md R131). -/
structure Station extends Engine where
  inq : List Word
  deriving DecidableEq, Repr

/-- Who calls `run`, and where the current engine's Output goes. -/
inductive Wiring where
  /-- a host drives the one engine; Output appends to the host's output queue `outq` (44_engine_run.md R120) -/
  | host
  /-- the orchestrator drives the ring; Output of engine `i` appends to `Q[(i+1) mod K]` (45_orchestrator.md R131) -/
  | ring
  /-- `Orchestrate` has failed: `new` answered `fault` and no engine was created (45_orchestrator.md R132). The station of such
  a State stands for no engine and never steps (log 21) -/
  | unbuilt (fault : FaultInfo)
  deriving DecidableEq, Repr

/-- `ost`, the orchestrator's status (45_orchestrator.md R130). -/
inductive RingStatus where
  | seeded
  | done
  | failed
  deriving DecidableEq, Repr

/-- The whole machine. Its own engine and input queue are those of the engine whose `run` is in progress or is called next;
`before` and `after` are the other engines of the ring in index order, so the current index is `before.length`. -/
structure State extends Station where
  before : List Station
  after : List Station
  wiring : Wiring
  outq : List Word
  last : Word
  ost : RingStatus
  deriving DecidableEq, Repr

/-- How a step of the machine stops: the faults `run` and `Drive` return to their caller. No instruction ends in one: an
instruction that raises a fault takes it as a next state (60_exceptions.md R159). -/
inductive Fault where
  /-- Raised by the step of a faulted engine that a host drives: `run` returns `Fault(flt)` again and changes nothing
  (44_engine_run.md R116). Safe: the spec's own answer. -/
  | engineFault (flt : FaultRecord)
  /-- Raised by the step of a failed ring: `Drive` has returned `Fault(i, flt)` (45_orchestrator.md R137). Safe: the
  spec's own answer. -/
  | driveFault (index : Nat) (flt : FaultRecord)
  /-- Raised by the step of an orchestrator whose seeding failed: `Orchestrate` has returned this fault of `new`, and no engine
  exists (45_orchestrator.md R132). Safe: the spec's own answer. -/
  | seedingFault (cause : FaultInfo)
  /-- Raised by the step of a faulted engine or failed ring whose engine holds no record: a state no run reaches
  (10_state.md R22 d). Safe: the machine stops. -/
  | unrecordedFault
  deriving DecidableEq, Repr

/-- Why an instruction has no meaning. -/
inductive Refusal where
  /-- Raised by an arm of `exec` whose instruction has no meaning yet; no arm does. Safe: the machine stops. -/
  | notModelled (mnemonic : String)
  deriving DecidableEq, Repr

/-- An engine as `new` leaves it for an empty image with no capacity bound (44_engine_run.md R110, 70_reset_and_hazards.md
R181). The image and the capacity are arguments of `new`; these two are the model's choice (log 4, log 5). -/
def Engine.reset : Engine :=
  { mem := { cells := [], extent := 0 }, memCapacity := none, ip := 0, rb := 0, st := .ready, flt := none }

/-- The machine right after reset: one engine driven by a host, with empty queues (log 1, log 5); `last` and `ost` belong to
a ring and hold 0 and Seeded (log 8). -/
def State.reset : State :=
  { toEngine := Engine.reset, inq := [], before := [], after := [], wiring := .host, outq := [], last := 0, ost := .seeded }

/-- The orchestrator after `Orchestrate` has failed with the fault `new` answered: `ost` is Failed and no engine exists
(45_orchestrator.md R132). The queues and `last` are not set by then, and hold what they hold at reset (log 8). -/
def State.unbuilt (fault : FaultInfo) : State := { State.reset with wiring := .unbuilt fault, ost := .failed }

end Sys2Proof.Machine
end

