-- ==== Sys2Proof/Machine/Ops.lean ====
section
/-!
DEFINITION. The named operations over memory, registers and queues, the range check of every sum and product, fetching,
and taking a fault.
-/

namespace Sys2Proof.Machine

/-! ## Memory -/

/-- The word listed for an address; an unlisted address holds 0 (20_memory.md R31). -/
def lookupCell : List (Nat × Word) → Nat → Word
  | [], _ => 0
  | (b, v) :: cs, a => if b = a then v else lookupCell cs a

/-- Insert a cell before the first one with a larger address. -/
def insertCell (a : Nat) (v : Word) : List (Nat × Word) → List (Nat × Word)
  | [] => [(a, v)]
  | (b, w) :: cs => if a < b then (a, v) :: (b, w) :: cs else (b, w) :: insertCell a v cs

/-- The raw cell read: a cell at or past the extent does not exist and reads as 0 (20_memory.md R31). -/
def Memory.read (m : Memory) (a : Nat) : Word := if a < m.extent then lookupCell m.cells a else 0

/-- The raw cell write: the extent grows to `a + 1` if needed and new cells between are 0 (20_memory.md R32). Writing 0
removes the entry, which keeps the canonical form. -/
def Memory.write (m : Memory) (a : Nat) (v : Word) : Memory :=
  let kept := m.cells.filter fun c => decide (c.1 ≠ a) && decide (c.1 < m.extent)
  { cells := if v = 0 then kept else insertCell a v kept, extent := max m.extent (a + 1) }

/-- Store consecutive words from an address on. -/
def Memory.storeWords (m : Memory) : Nat → List Word → Memory
  | _, [] => m
  | a, w :: ws => (m.write a w).storeWords (a + 1) ws

/-- The canonical form: addresses strictly rising, none at or past the extent, no listed 0. -/
abbrev Memory.wf (m : Memory) : Prop :=
  m.cells.Pairwise (fun c d => c.1 < d.1) ∧ ∀ c ∈ m.cells, c.2 ≠ 0 ∧ c.1 < m.extent

/-- The cells of a program image from address `i` on, zeros not listed. -/
def cellsOfProgram : Nat → List Word → List (Nat × Word)
  | _, [] => []
  | i, w :: ws => if w = 0 then cellsOfProgram (i + 1) ws else (i, w) :: cellsOfProgram (i + 1) ws

/-- A copy of the program image: cell `i` holds `program[i]`, the extent is its length (10_state.md R11, R12). -/
def Memory.ofProgram (program : List Word) : Memory := { cells := cellsOfProgram 0 program, extent := program.length }

/-! ## Checks -/

/-- `chk64` (40_arith_compare.md R76): an integer outside 64 bits raises ArithmeticOverflow. -/
def chk64 (z : Int) : Except FaultInfo Int :=
  if z < intMin ∨ intMax < z then .error (.arithmeticOverflow z) else .ok z

/-- `CAP` (00_scope.md R4): 2^63 with no configured capacity. -/
def Engine.cap (e : Engine) : Nat := e.memCapacity.getD Config.unboundedCap

/-- `AddrCheck` (20_memory.md R33), answering the address. -/
def addrCheck (e : Engine) (z : Int) : Except FaultInfo Nat :=
  if z < 0 then .error (.negativeAddress z)
  else if e.cap ≤ z.toNat then .error (.memoryCapacityExceeded z.toNat)
  else .ok z.toNat

/-- `MemRead` (20_memory.md R31). -/
def memRead (e : Engine) (z : Int) : Except FaultInfo Word := do
  let a ← addrCheck e z
  .ok (e.mem.read a)

/-- `MemWrite` (20_memory.md R32), answering the memory after it. -/
def memWrite (e : Engine) (z : Int) (v : Word) : Except FaultInfo Memory := do
  let a ← addrCheck e z
  .ok (e.mem.write a v)

/-- Fetch: the word at `ip` (44_engine_run.md R111). -/
def fetch (e : Engine) : Except FaultInfo Word := memRead e e.ip

/-- A decode fault as the engine's fault (60_exceptions.md R152, R153). -/
def FaultInfo.ofDecode : DecodeFault → FaultInfo
  | .invalidOpcode w => .invalidOpcode w
  | .invalidParameterMode k d => .invalidParameterMode k d

/-- Fetch and decode, afresh at every step (44_engine_run.md R111, 20_memory.md R43). -/
def fetchDecode (e : Engine) : Except FaultInfo Instr := do
  let w ← fetch e
  match decode w with
  | .ok i => .ok i
  | .error d => .error (FaultInfo.ofDecode d)

/-! ## Registers -/

/-- Replace the current engine's memory. -/
def State.setMem (s : State) (m : Memory) : State := { s with mem := m }

/-- `ip <- n`. -/
def State.setIp (s : State) (n : Nat) : State := { s with ip := n }

/-- `rb <- v`. -/
def State.setRb (s : State) (v : Word) : State := { s with rb := v }

/-- `st <- x`. -/
def State.setSt (s : State) (x : ExecState) : State := { s with st := x }

/-- `flt <- r`. -/
def State.setFlt (s : State) (r : Option FaultRecord) : State := { s with flt := r }

/-- Replace the current engine's input queue. -/
def State.setInq (s : State) (q : List Word) : State := { s with inq := q }

/-- `ost <- x`. -/
def State.setOst (s : State) (x : RingStatus) : State := { s with ost := x }

/-! ## Queues -/

/-- Append to the back of an engine's input queue. -/
def Station.push (x : Station) (v : Word) : Station := { x with inq := x.inq ++ [v] }

/-- Append to `Q[0]` when the current engine is the last of the ring, and latch the value (45_orchestrator.md R131, R133).
With one engine `Q[0]` is its own input queue (R141). -/
def State.pushFirst (s : State) (v : Word) : State :=
  match s.before with
  | [] => { s with inq := s.inq ++ [v], last := v }
  | x :: xs => { s with before := x.push v :: xs, last := v }

/-- `push_back(out, v)` (41_io.md R81): on the host's output queue, or on `Q[(i+1) mod K]` (45_orchestrator.md R131). With no engine
there is no queue to append to, and no step gets here (log 21). -/
def State.pushOut (s : State) (v : Word) : State :=
  match s.wiring with
  | .host => { s with outq := s.outq ++ [v] }
  | .ring =>
    match s.after with
    | [] => s.pushFirst v
    | x :: xs => { s with after := x.push v :: xs }
  | .unbuilt _ => s

/-! ## Faults -/

/-- Taking a fault (60_exceptions.md R159, R165): `st <- Faulted`, `flt <- (cause and detail, ip, W or none)`, and nothing else
changes (R160). `W` is the word at `ip`, absent when the fetch itself faults. -/
def State.takeFault (s : State) (f : FaultInfo) : State :=
  { s with st := .faulted, flt := some { info := f, faultIp := s.ip, word := (fetch s.toEngine).toOption } }

/-- Commit the state an instruction computed, or take the fault it met first (30_encoding.md R67 step 8, 44_engine_run.md
R111). There is no return from a fault (60_exceptions.md R161). -/
def State.commit (s : State) (r : Except FaultInfo State) : Host.Outcome State Fault Refusal :=
  match r with
  | .ok t => .next t
  | .error f => .next (s.takeFault f)

end Sys2Proof.Machine
end

