-- ==== Sys2Proof/Machine/Flags.lean ====
section
/-!
DEFINITION. The results of the four ALU instructions. The machine has no flags (10_state.md R18): a comparison writes 1 or 0 to
memory. Sums and products are computed as integers and range-checked (40_arith_compare.md R75, R76).
-/

namespace Sys2Proof.Machine

/-- The word a comparison writes (40_arith_compare.md R73, R74). -/
def truth (b : Bool) : Word := if b then 1 else 0

/-- Add (40_arith_compare.md R71). -/
def sumResult (a b : Word) : Except FaultInfo Word := do
  let z ← chk64 (a.toInt + b.toInt)
  .ok (Word.ofZ z)

/-- Mul (40_arith_compare.md R72). -/
def productResult (a b : Word) : Except FaultInfo Word := do
  let z ← chk64 (a.toInt * b.toInt)
  .ok (Word.ofZ z)

/-- LessThan, signed (40_arith_compare.md R73). -/
def lessThanResult (a b : Word) : Except FaultInfo Word := .ok (truth (decide (a.toInt < b.toInt)))

/-- Equals (40_arith_compare.md R74). -/
def equalsResult (a b : Word) : Except FaultInfo Word := .ok (truth (decide (a.toInt = b.toInt)))

end Sys2Proof.Machine
end

