-- ==== Sys2Proof/Machine/Operands.lean ====
section
/-!
DEFINITION. The addressing resolver (30_encoding.md R57 to R60) and the computation of the next `ip` (10_state.md R13,
42_jumps.md R92). Everything here only reads the engine.
-/

namespace Sys2Proof.Machine

/-- The word in the slot of parameter `k`, at `chk64(ip + k)` (30_encoding.md R60). -/
def readSlot (e : Engine) (k : Nat) : Except FaultInfo Word := do
  let a ← chk64 (e.ip + k)
  memRead e a

/-- The address a Relative parameter names, `chk64(rb + p)` (30_encoding.md R58, R59). -/
def relativeAddr (e : Engine) (p : Word) : Except FaultInfo Int := chk64 (e.rb.toInt + p.toInt)

/-- `resolve_value(k, mode)` (30_encoding.md R58). -/
def resolveValue (e : Engine) (k : Nat) (m : Mode) : Except FaultInfo Word := do
  let p ← readSlot e k
  match m with
  | .immediate => .ok p
  | .position => memRead e p.toInt
  | .relative =>
    let a ← relativeAddr e p
    memRead e a

/-- The destination-mode check of dispatch (30_encoding.md R67 step 3, 60_exceptions.md R154). -/
def checkDestination (k : Nat) (m : Mode) : Except FaultInfo Unit :=
  match m with
  | .immediate => .error (.invalidDestinationMode k)
  | .position => .ok ()
  | .relative => .ok ()

/-- `resolve_destination(k, mode)` (30_encoding.md R59): the checked address. The cell is not read. -/
def resolveDestination (e : Engine) (k : Nat) (m : Mode) : Except FaultInfo Nat := do
  checkDestination k m
  let p ← readSlot e k
  match m with
  | .immediate => .error (.invalidDestinationMode k)
  | .position => addrCheck e p.toInt
  | .relative =>
    let a ← relativeAddr e p
    addrCheck e a

/-- `chk64(ip + n)` as the next `ip` (10_state.md R13, 30_encoding.md R67 step 6). -/
def nextIp (e : Engine) (n : Nat) : Except FaultInfo Nat := do
  let z ← chk64 (e.ip + n)
  .ok z.toNat

/-- `JumpTarget(b)` (42_jumps.md R92): a negative target faults, every other is accepted. -/
def jumpTarget (b : Word) : Except FaultInfo Nat :=
  if b.toInt < 0 then .error (.negativeAddress b.toInt) else .ok b.toInt.toNat

end Sys2Proof.Machine
end

