-- ==== Sys2Proof/Machine/Alu.lean ====
section
/-!
DEFINITION. Add, Mul, LessThan and Equals (40_arith_compare.md).
-/

namespace Sys2Proof.Machine

/-- The shared execution of a three-parameter instruction with operation `f` (40_arith_compare.md R70), in the order of
30_encoding.md R67. -/
def alu (f : Word → Word → Except FaultInfo Word) (m1 m2 m3 : Mode) (s : State) : Except FaultInfo State := do
  checkDestination 3 m3
  let a ← resolveValue s.toEngine 1 m1
  let b ← resolveValue s.toEngine 2 m2
  let dest ← resolveDestination s.toEngine 3 m3
  let r ← f a b
  let n ← nextIp s.toEngine 4
  let m ← memWrite s.toEngine dest r
  .ok (((s.setMem m).setIp n).setSt .ready)

/-- Add (40_arith_compare.md R71). -/
def execAdd (m1 m2 m3 : Mode) (s : State) : Host.Outcome State Fault Refusal := s.commit (alu sumResult m1 m2 m3 s)

/-- Mul (40_arith_compare.md R72). -/
def execMul (m1 m2 m3 : Mode) (s : State) : Host.Outcome State Fault Refusal := s.commit (alu productResult m1 m2 m3 s)

/-- LessThan (40_arith_compare.md R73). -/
def execLessThan (m1 m2 m3 : Mode) (s : State) : Host.Outcome State Fault Refusal :=
  s.commit (alu lessThanResult m1 m2 m3 s)

/-- Equals (40_arith_compare.md R74). -/
def execEquals (m1 m2 m3 : Mode) (s : State) : Host.Outcome State Fault Refusal := s.commit (alu equalsResult m1 m2 m3 s)

end Sys2Proof.Machine
end

