-- ==== Sys2Proof/Machine/Control.lean ====
section
/-!
DEFINITION. AdjustRelativeBase and Halt (43_relbase_halt.md).
-/

namespace Sys2Proof.Machine

/-- AdjustRelativeBase (43_relbase_halt.md R100): the operand is read with the old `rb`. -/
def adjustRelativeBase (m1 : Mode) (s : State) : Except FaultInfo State := do
  let a ← resolveValue s.toEngine 1 m1
  let z ← chk64 (s.rb.toInt + a.toInt)
  let n ← nextIp s.toEngine 2
  .ok (((s.setRb (Word.ofZ z)).setIp n).setSt .ready)

/-- Halt (43_relbase_halt.md R101): `ip` advances by 1 (90_conflicts.md C5). -/
def halt (s : State) : Except FaultInfo State := do
  let n ← nextIp s.toEngine 1
  .ok ((s.setIp n).setSt .halted)

/-- AdjustRelativeBase (43_relbase_halt.md R100). -/
def execAdjustRelativeBase (m1 : Mode) (s : State) : Host.Outcome State Fault Refusal := s.commit (adjustRelativeBase m1 s)

/-- Halt (43_relbase_halt.md R101). -/
def execHalt (s : State) : Host.Outcome State Fault Refusal := s.commit (halt s)

end Sys2Proof.Machine
end

