-- ==== Sys2Proof/Machine/Io.lean ====
section
/-!
DEFINITION. Input and Output (41_io.md).
-/

namespace Sys2Proof.Machine

/-- Input (41_io.md R80): every fault is checked before the queue; an empty queue changes `st` alone. -/
def input (m1 : Mode) (s : State) : Except FaultInfo State := do
  checkDestination 1 m1
  let dest ← resolveDestination s.toEngine 1 m1
  let n ← nextIp s.toEngine 2
  match s.inq with
  | [] => .ok (s.setSt .blockedOnInput)
  | v :: rest =>
    let m ← memWrite s.toEngine dest v
    .ok ((((s.setInq rest).setMem m).setIp n).setSt .ready)

/-- Output (41_io.md R81). -/
def output (m1 : Mode) (s : State) : Except FaultInfo State := do
  let a ← resolveValue s.toEngine 1 m1
  let n ← nextIp s.toEngine 2
  .ok (((s.pushOut a).setIp n).setSt .ready)

/-- Input (41_io.md R80). -/
def execInput (m1 : Mode) (s : State) : Host.Outcome State Fault Refusal := s.commit (input m1 s)

/-- Output (41_io.md R81). -/
def execOutput (m1 : Mode) (s : State) : Host.Outcome State Fault Refusal := s.commit (output m1 s)

end Sys2Proof.Machine
end

