-- ==== Sys2Proof/Machine/Jumps.lean ====
section
/-!
DEFINITION. JumpIfTrue and JumpIfFalse (42_jumps.md).
-/

namespace Sys2Proof.Machine

/-- The next `ip` of a conditional jump (42_jumps.md R90, R91). -/
def jumpNext (e : Engine) (taken : Bool) (b : Word) : Except FaultInfo Nat :=
  if taken then jumpTarget b else nextIp e 3

/-- A conditional jump: both parameters are resolved before the test (42_jumps.md R90, R91). -/
def jump (taken : Word → Bool) (m1 m2 : Mode) (s : State) : Except FaultInfo State := do
  let a ← resolveValue s.toEngine 1 m1
  let b ← resolveValue s.toEngine 2 m2
  let n ← jumpNext s.toEngine (taken a) b
  .ok ((s.setIp n).setSt .ready)

/-- JumpIfTrue (42_jumps.md R90). -/
def execJumpIfTrue (m1 m2 : Mode) (s : State) : Host.Outcome State Fault Refusal :=
  s.commit (jump (fun a => decide (a.toInt ≠ 0)) m1 m2 s)

/-- JumpIfFalse (42_jumps.md R91). -/
def execJumpIfFalse (m1 m2 : Mode) (s : State) : Host.Outcome State Fault Refusal :=
  s.commit (jump (fun a => decide (a.toInt = 0)) m1 m2 s)

end Sys2Proof.Machine
end

