-- ==== Sys2Proof/Machine/Engine.lean ====
section
/-!
DEFINITION. One engine: construction (`new`), the single step, the `run` loop, and what a host may do (44_engine_run.md).
-/

namespace Sys2Proof.Machine

/-! ## Construction and the host -/

/-- `new(program, MEM_CAPACITY)` (44_engine_run.md R110). -/
def Engine.new (program : List Word) (capacity : Option Nat) : Except FaultInfo Engine :=
  if capacity.getD Config.unboundedCap < program.length then .error (.memoryCapacityExceeded (program.length - 1))
  else
    .ok { mem := Memory.ofProgram program, memCapacity := capacity, ip := 0, rb := 0, st := .ready, flt := none }

/-- What must be done before a program runs (70_reset_and_hazards.md R183): the engine is built from the image and the host's
input queue holds `queue`; the host's output queue is empty. -/
def State.boot (program : List Word) (capacity : Option Nat) (queue : List Word) : Except FaultInfo State := do
  let e ← Engine.new program capacity
  .ok { State.reset with toEngine := e, inq := queue }

/-- The host appends a value to the input queue, between `run` calls (44_engine_run.md R120; log 17). -/
def State.supplyInput (s : State) (v : Word) : State := s.setInq (s.inq ++ [v])

/-- The host pops the front of the output queue, between `run` calls (44_engine_run.md R120). -/
def State.drainOutput (s : State) : Option (Word × State) :=
  match s.outq with
  | [] => none
  | v :: rest => some (v, { s with outq := rest })

/-- The host inspects a cell: 0 past the extent, and nothing changes (44_engine_run.md R119). -/
def State.inspect (s : State) (a : Nat) : Word := s.mem.read a

/-! ## The step and the run loop -/

/-- `Step(E, in, out)` (44_engine_run.md R111): fetch, decode, dispatch; a fault of fetch or decode is taken. -/
def fetchExec (s : State) : Host.Outcome State Fault Refusal :=
  match fetchDecode s.toEngine with
  | .ok i => exec i s
  | .error f => .next (s.takeFault f)

/-- One iteration of `run` (44_engine_run.md R112): a halted or faulted engine, and a blocked one whose queue is still empty, does
nothing (R113, R114, R116); every other engine executes one instruction. -/
def State.engineTurn (s : State) : Host.Outcome State Fault Refusal :=
  match s.st with
  | .ready => fetchExec s
  | .blockedOnInput => if s.inq = [] then .next s else fetchExec s
  | .halted => .next s
  | .faulted => .next s

/-- The result of `run` (44_engine_run.md R112). -/
inductive RunResult where
  | ok
  | fault (flt : Option FaultRecord)
  deriving DecidableEq, Repr

/-- The loop of `run` (44_engine_run.md R112) under fuel; `none` only says that the fuel ran out (R121, log 16). -/
def State.runLoop : Nat → State → Option (RunResult × State)
  | 0, _ => none
  | k + 1, s =>
    match fetchExec s with
    | .next t =>
      match t.st with
      | .ready => State.runLoop k t
      | .blockedOnInput => some (.ok, t)
      | .halted => some (.ok, t)
      | .faulted => some (.fault t.flt, t)
    | .fault _ => none
    | .refused _ => none

/-- `run` (44_engine_run.md R112 to R116) on the current engine, under fuel. -/
def State.run (fuel : Nat) (s : State) : Option (RunResult × State) :=
  match s.st with
  | .halted => some (.ok, s)
  | .faulted => some (.fault s.flt, s)
  | .blockedOnInput => if s.inq = [] then some (.ok, s) else State.runLoop fuel s
  | .ready => State.runLoop fuel s

/-- A machine that has stopped with a fault reports the record again (44_engine_run.md R116). -/
def State.reportFault (s : State) (report : FaultRecord → Fault) : Host.Outcome State Fault Refusal :=
  match s.flt with
  | some r => .fault (report r)
  | none => .fault .unrecordedFault

/-- The step of an engine that a host drives: one iteration of the `run` it calls next (log 7). -/
def State.hostStep (s : State) : Host.Outcome State Fault Refusal :=
  match s.st with
  | .ready => s.engineTurn
  | .blockedOnInput => s.engineTurn
  | .halted => s.engineTurn
  | .faulted => s.reportFault .engineFault

end Sys2Proof.Machine
end

