-- ==== Sys2Proof/Machine/Orchestrator.lean ====
section
/-!
DEFINITION. The device orchestrator: wiring, seeding and driving the ring (45_orchestrator.md).
-/

namespace Sys2Proof.Machine

/-- The engines that exist, with their input queues, in index order: entry `i` is `E[i]` with `Q[i]` (45_orchestrator.md R130);
none where seeding failed (R132). -/
def State.stations (s : State) : List Station :=
  match s.wiring with
  | .host => s.before ++ s.toStation :: s.after
  | .ring => s.before ++ s.toStation :: s.after
  | .unbuilt _ => []

/-- The index of the engine whose `run` is in progress or is called next. -/
def State.index (s : State) : Nat := s.before.length

/-- The ring of engines equal to `e` with its queues seeded (45_orchestrator.md R132). -/
def State.seed (e : Engine) (phase0 : Word) (phases : List Word) (f0 : Word) : State :=
  { toEngine := e, inq := [phase0, f0], before := [], after := phases.map fun p => { toEngine := e, inq := [p] },
    wiring := .ring, outq := [], last := f0, ost := .seeded }

/-- `Orchestrate` (45_orchestrator.md R132), answering the orchestrator it leaves. The first phase is an argument of its own, so
that `K >= 1` (00_scope.md R5). All K calls of `new` have the same arguments, so a fault is the first one's: `ost` becomes
Failed, no engine exists, and the fault that `Orchestrate` returns is kept and reported (log 21). -/
def State.orchestrate (program : List Word) (capacity : Option Nat) (phase0 : Word) (phases : List Word) (f0 : Word) : State :=
  match Engine.new program capacity with
  | .ok e => State.seed e phase0 phases f0
  | .error f => State.unbuilt f

/-- The stop test reads only `st` of each engine (45_orchestrator.md R135). -/
def State.allHalted (s : State) : Bool := s.stations.all fun x => decide (x.st = .halted)

/-- Make engine 0 the current one. -/
def State.toFirst (s : State) : State :=
  match s.before with
  | [] => s
  | x :: xs => { s with toStation := x, before := [], after := xs ++ s.toStation :: s.after }

/-- The end of a round: stop if every engine is halted, else begin the next round (45_orchestrator.md R134, R135). -/
def State.endRound (s : State) : State := if s.allHalted then s.setOst .done else s.toFirst

/-- The current engine's `run` has returned Ok: go on to the next engine, or end the round (45_orchestrator.md R134). -/
def State.runReturned (s : State) : State :=
  match s.after with
  | [] => s.endRound
  | x :: xs => { s with toStation := x, before := s.before ++ [s.toStation], after := xs }

/-- What Drive does after one iteration of the current engine's `run`: a fault stops it (45_orchestrator.md R137), a
return goes on, and otherwise `run` goes round again. -/
def State.driveAfter (s : State) : State :=
  match s.st with
  | .ready => s
  | .blockedOnInput => s.runReturned
  | .halted => s.runReturned
  | .faulted => s.setOst .failed

/-- The step of a ring: one iteration of the current engine's `run`, and Drive's bookkeeping after it (log 10). A finished
ring does nothing; a failed one reports `(i, flt)` again. -/
def State.ringStep (s : State) : Host.Outcome State Fault Refusal :=
  match s.ost with
  | .seeded =>
    match s.engineTurn with
    | .next t => .next t.driveAfter
    | .fault f => .fault f
    | .refused r => .refused r
  | .done => .next s
  | .failed => s.reportFault (.driveFault s.index)

/-- The rest of a round, `left` engines after the current one, each invoked once in index order (45_orchestrator.md R134). -/
def State.roundFrom (fuel : Nat) : Nat → State → Option State
  | left, s =>
    match s.run fuel with
    | none => none
    | some (.fault _, t) => some (t.setOst .failed)
    | some (.ok, t) =>
      match left with
      | 0 => some t.endRound
      | n + 1 => State.roundFrom fuel n t.runReturned

/-- One round from the current engine to the last (45_orchestrator.md R134). -/
def State.round (fuel : Nat) (s : State) : Option State := State.roundFrom fuel s.after.length s

/-- The result of Drive (45_orchestrator.md R134, R136, R137). -/
inductive DriveResult where
  | ok (value : Word)
  | fault (index : Nat) (flt : Option FaultRecord)
  deriving DecidableEq, Repr

/-- `Drive` (45_orchestrator.md R134): at most `rounds` rounds, each `run` under `fuel`; `none` says only that the fuel ran out. -/
def State.drive (fuel : Nat) : Nat → State → Option (DriveResult × State)
  | 0, _ => none
  | k + 1, s =>
    match s.round fuel with
    | none => none
    | some t =>
      match t.ost with
      | .seeded => State.drive fuel k t
      | .done => some (.ok t.last, t)
      | .failed => some (.fault t.index t.flt, t)

end Sys2Proof.Machine
end

