-- ==== Sys2Proof/Machine/Step.lean ====
section
/-!
DEFINITION. One step of the machine: one iteration of the `run` its driver makes next (log 7).
-/

namespace Sys2Proof.Machine

/-- The step, by who drives the machine (44_engine_run.md R112, 45_orchestrator.md R134). An orchestrator whose seeding failed
is not Seeded, so Drive does not begin, and the fault of `Orchestrate` is reported (45_orchestrator.md R132; log 21). -/
def step (s : State) : Host.Outcome State Fault Refusal :=
  match s.wiring with
  | .host => s.hostStep
  | .ring => s.ringStep
  | .unbuilt f => .fault (.seedingFault f)

/-- Who drives the machine once a program is placed in it: a host, where no engine existed (log 15). -/
def Wiring.loaded : Wiring → Wiring
  | .host => .host
  | .ring => .ring
  | .unbuilt _ => .host

/-- `s` with the words of an instruction whose bits are `w` stored from `ip` on, and the current engine ready to run it:
a program is loaded from outside the machine, and a halted, blocked or faulted engine would not fetch (log 15). -/
def State.withFetchWord (s : State) (nbits w : Nat) : State :=
  { s with
    mem := s.mem.storeWords s.ip
      [tableWord nbits w 0, tableWord nbits w 1, tableWord nbits w 2, tableWord nbits w 3],
    st := .ready, flt := none, wiring := s.wiring.loaded, ost := .seeded }

end Sys2Proof.Machine
end

