-- ==== Sys2Proof/Safety.lean ====
section
/-!
DEFINITION. What holds in every state a run reaches (10_state.md R22), as predicates over all states.
-/

namespace Sys2Proof.Machine

/-- A pending Input: the word at `ip` decodes without fault to an Input whose destination and next `ip` are resolved without
fault (10_state.md R22 e). -/
def Engine.PendingInput (e : Engine) : Prop :=
  ∃ m1 dest n, fetchDecode e = .ok (.input m1) ∧ resolveDestination e 1 m1 = .ok dest ∧ nextIp e 2 = .ok n

/-- The invariant of one engine (10_state.md R22 a, b, d, e; c holds by the type of a word), the canonical form of its
memory, the range of MEM_CAPACITY (00_scope.md R4), and that no engine records the loader's fault (60_exceptions.md R151). -/
structure Engine.Inv (e : Engine) : Prop where
  memory : e.mem.wf
  capacity : e.cap ≤ Config.unboundedCap
  extent : e.mem.extent ≤ e.cap
  ip : (e.ip : Int) ≤ intMax
  record : e.st = .faulted ↔ e.flt ≠ none
  blocked : e.st = .blockedOnInput → e.PendingInput
  cause : ∀ r, e.flt = some r → r.info ≠ .programParseError

/-- The invariant of the machine: every engine's, one engine alone when a host drives it, and the orchestrator's status agrees
with its engines (45_orchestrator.md R132, R134, R135, R137). -/
structure State.Inv (s : State) : Prop where
  engines : ∀ x ∈ s.stations, x.toEngine.Inv
  alone : s.wiring = .host → s.before = [] ∧ s.after = []
  seeded : s.wiring = .ring → s.ost = .seeded → ∀ x ∈ s.stations, x.st ≠ .faulted
  done : s.wiring = .ring → s.ost = .done → ∀ x ∈ s.stations, x.st = .halted
  failed : s.wiring = .ring → s.ost = .failed → s.st = .faulted
  unbuilt : ∀ f, s.wiring = .unbuilt f → s.ost = .failed

/-- A run that has not gone wrong (44_engine_run.md R124): no engine has faulted. -/
def State.Safe (s : State) : Prop := ∀ x ∈ s.stations, x.st ≠ .faulted

end Sys2Proof.Machine
end

