-- ==== Sys2Proof/Certificates/Slice0/Obligations.lean ====
section
/-!
DEFINITION. The statements for the provers. Those that rest on a decision of the spec (92_eei_decisions.md) say so: such a
decision is the spec's own choice and not its source's.
-/

open Sys2Proof Sys2Proof.Machine

/-! ## Memory and range checks -/

/-- 20_memory.md R31: `MemRead` applies `AddrCheck`, then answers the stored cell below the extent and 0 at or past it. It answers
a word only, so it changes neither `mem` nor `extent`. -/
def Obligations.ReadPastExtentIsZero : Prop :=
  ∀ (e : Engine) (z : Int),
    (∀ f, addrCheck e z = .error f → memRead e z = .error f) ∧
    (∀ a, addrCheck e z = .ok a →
      memRead e z = .ok (if a < e.mem.extent then lookupCell e.mem.cells a else 0))

/-- 20_memory.md R32: `MemWrite` applies `AddrCheck`; after it the address reads the value, every other address reads what it
read before, the new cells between the old extent and the address read 0, and the extent is the larger of the old one and the
address plus one. Inside an instruction the resolver has checked the address, so the write never raises. -/
def Obligations.WriteChangesOneCell : Prop :=
  ∀ (e : Engine) (v : Word),
    (∀ z f, addrCheck e z = .error f → memWrite e z v = .error f) ∧
    (∀ z a, addrCheck e z = .ok a →
      ∃ m, memWrite e z v = .ok m ∧ m.read a = v ∧ (∀ b, b ≠ a → m.read b = e.mem.read b) ∧
        (∀ b, e.mem.extent ≤ b → b < a → m.read b = 0) ∧ m.extent = max e.mem.extent (a + 1)) ∧
    (∀ k m a, resolveDestination e k m = .ok a → ∃ m', memWrite e a v = .ok m')

/-- The address check, by decision D12 of 92_eei_decisions.md: a negative address, then an address at or above CAP, faults;
every other address passes. Without a configured capacity CAP is 2^63. -/
def Obligations.AddressCheckRanges : Prop :=
  ∀ (e : Engine) (z : Int),
    (z < 0 → addrCheck e z = .error (.negativeAddress z)) ∧
    (0 ≤ z → (e.cap : Int) ≤ z → addrCheck e z = .error (.memoryCapacityExceeded z.toNat)) ∧
    (0 ≤ z → z < e.cap → addrCheck e z = .ok z.toNat) ∧
    (e.memCapacity = none → e.cap = 2 ^ 63) ∧ (∀ c, e.memCapacity = some c → e.cap = c)

/-- The range check, by decision D1 of 92_eei_decisions.md, over the bounds of `Int64` that 00_scope.md R3 takes from general
knowledge (its passage K4; PRESUMED, log entry 3): an integer `Int64` holds passes unchanged, every other raises
ArithmeticOverflow with the exact value; and a word made of an integer in range is that integer. -/
def Obligations.RangeCheckNeverWraps : Prop :=
  ∀ z : Int,
    (-2 ^ 63 ≤ z ∧ z ≤ 2 ^ 63 - 1 → chk64 z = .ok z ∧ (Word.ofZ z).toInt = z) ∧
    (z < -2 ^ 63 ∨ 2 ^ 63 - 1 < z → chk64 z = .error (.arithmeticOverflow z))

/-- With no configured capacity no step ever raises MemoryCapacityExceeded, at its fetch or later (20_memory.md section 1 on
`CAP = 2^63`, decision D12). The range of `ip` is the invariant of 10_state.md section 7. -/
def Obligations.UnboundedMemoryIsNeverExceeded : Prop :=
  ∀ s t : State, s.memCapacity = none → (s.ip : Int) ≤ intMax → s.flt = none → fetchExec s = .next t →
    ∀ r a, t.flt = some r → r.info ≠ .memoryCapacityExceeded a

/-! ## The resolver -/

/-- 30_encoding.md R58: the slot at `chk64(ip + k)` is read; Immediate answers its word, Position the cell at that address,
Relative the cell at `chk64(rb + p)`; every fault on the way is the answer. -/
def Obligations.ResolveValueByMode : Prop :=
  ∀ (e : Engine) (k : Nat),
    (¬ InRange (e.ip + k) → ∀ m, resolveValue e k m = .error (.arithmeticOverflow (e.ip + k))) ∧
    (InRange (e.ip + k) → ∀ m f, memRead e (e.ip + k) = .error f → resolveValue e k m = .error f) ∧
    (InRange (e.ip + k) → ∀ p, memRead e (e.ip + k) = .ok p →
      resolveValue e k .immediate = .ok p ∧
      resolveValue e k .position = memRead e p.toInt ∧
      (InRange (e.rb.toInt + p.toInt) → resolveValue e k .relative = memRead e (e.rb.toInt + p.toInt)) ∧
      (¬ InRange (e.rb.toInt + p.toInt) →
        resolveValue e k .relative = .error (.arithmeticOverflow (e.rb.toInt + p.toInt))))

/-- 30_encoding.md R59: Immediate is no destination; otherwise the slot is read and the address it names, `p` or
`chk64(rb + p)`, is checked by `AddrCheck` and answered. The cell itself plays no part. -/
def Obligations.ResolveDestinationByMode : Prop :=
  ∀ (e : Engine) (k : Nat),
    resolveDestination e k .immediate = .error (.invalidDestinationMode k) ∧
    (¬ InRange (e.ip + k) → ∀ m, m ≠ .immediate →
      resolveDestination e k m = .error (.arithmeticOverflow (e.ip + k))) ∧
    (InRange (e.ip + k) → ∀ m f, m ≠ .immediate → memRead e (e.ip + k) = .error f →
      resolveDestination e k m = .error f) ∧
    (InRange (e.ip + k) → ∀ p, memRead e (e.ip + k) = .ok p →
      resolveDestination e k .position = addrCheck e p.toInt ∧
      (InRange (e.rb.toInt + p.toInt) → resolveDestination e k .relative = addrCheck e (e.rb.toInt + p.toInt)) ∧
      (¬ InRange (e.rb.toInt + p.toInt) →
        resolveDestination e k .relative = .error (.arithmeticOverflow (e.rb.toInt + p.toInt))))

/-! ## Decoding -/

/-- What the decoder accepts, exactly (30_encoding.md section 1, with decisions D2, D3 and D4 of 92_eei_decisions.md): a word
decodes to `i` just when it is not negative, its two low digits are the opcode of `i`, its three mode digits are at most 2, and
those of the parameters `i` has are their modes. Digits at 10^5 and above, and the value of an unused mode digit, play no part. -/
def Obligations.DecodeReadsTheDigits : Prop :=
  ∀ (w : Word) (i : Instr),
    decode w = .ok i ↔
      0 ≤ w.toInt ∧ w.toInt.toNat % 100 = i.opcode ∧
      (∀ k, 1 ≤ k → k ≤ 3 → digit w.toInt.toNat (k + 1) ≤ 2) ∧
      (∀ j m, i.modes[j]? = some m → digit w.toInt.toNat (j + 2) = m.toDigit)

/-- Decode and encode agree: for every instruction with every mode of every parameter, an Immediate destination included. -/
def Obligations.DecodeOfEncode : Prop := ∀ i : Instr, decode (encode i) = .ok i

/-- What the decoder refuses (30_encoding.md sections 1 and 5, with decisions D2, D4 and D5 of 92_eei_decisions.md): a negative
word, then an opcode outside the set, then the lowest parameter whose mode digit is above 2, for every opcode. -/
def Obligations.DecodeRefusals : Prop :=
  ∀ w : Word,
    (w.toInt < 0 → decode w = .error (.invalidOpcode w)) ∧
    (0 ≤ w.toInt → w.toInt.toNat % 100 ∉ [1, 2, 3, 4, 5, 6, 7, 8, 9, 99] → decode w = .error (.invalidOpcode w)) ∧
    (0 ≤ w.toInt → w.toInt.toNat % 100 ∈ [1, 2, 3, 4, 5, 6, 7, 8, 9, 99] → ∀ k, 1 ≤ k → k ≤ 3 →
      2 < digit w.toInt.toNat (k + 1) → (∀ j, 1 ≤ j → j < k → digit w.toInt.toNat (j + 1) ≤ 2) →
      decode w = .error (.invalidParameterMode k (digit w.toInt.toNat (k + 1))))

/-- Words of the spec's worked decodings and of its opcode map (30_encoding.md), and of its vectors X1, X6 and X8 (95_test_vectors.md
section 2), decode as written there. That 100099 is Halt (R54, vector X8) is decision D3 of 92_eei_decisions.md, log entry 12. -/
def Obligations.SpecWordsDecode : Prop :=
  decode 1002 = .ok (.mul .position .immediate .position) ∧
  decode 21101 = .ok (.add .immediate .immediate .relative) ∧
  decode 204 = .ok (.output .relative) ∧
  decode 1005 = .ok (.jumpIfTrue .position .immediate) ∧
  decode 109 = .ok (.adjustRelativeBase .immediate) ∧
  decode 203 = .ok (.input .relative) ∧
  decode 100099 = .ok .halt ∧
  decode 301 = .error (.invalidParameterMode 1 3) ∧
  decode 0 = .error (.invalidOpcode 0)

/-! ## The step -/

/-- A step runs the decoded instruction (44_engine_run.md section 2): when the word at `ip` decodes to `i` and the engine is Ready,
or blocked with input waiting, the step of an engine a host drives is `exec i`, and the step of a seeded ring is `exec i` followed
by Drive's bookkeeping `State.driveAfter`. -/
def Obligations.StepRunsDecodedInstruction : Prop :=
  ∀ (s : State) (w : Word) (i : Instr), memRead s.toEngine s.ip = .ok w → decode w = .ok i →
    (s.st = .ready ∨ (s.st = .blockedOnInput ∧ s.inq ≠ [])) →
    (s.wiring = .host → step s = exec i s) ∧
    (s.wiring = .ring → s.ost = .seeded → ∀ t, exec i s = .next t → step s = .next t.driveAfter)

/-- A fault of fetch or decode is taken (44_engine_run.md section 2; 60_exceptions.md sections 1 and 3, with decisions D10, D11 and
D23): only `st` and `flt` change, the record holds `ip`, and the raw word unless the fetch itself faulted. -/
def Obligations.FetchAndDecodeFaultsAreTaken : Prop :=
  ∀ s : State, s.wiring = .host → s.st = .ready →
    (s.cap ≤ s.ip → step s =
      .next { s with st := .faulted, flt := some { info := .memoryCapacityExceeded s.ip, faultIp := s.ip, word := none } }) ∧
    (∀ w, memRead s.toEngine s.ip = .ok w → decode w = .error (.invalidOpcode w) → step s =
      .next { s with st := .faulted, flt := some { info := .invalidOpcode w, faultIp := s.ip, word := some w } }) ∧
    (∀ w k d, memRead s.toEngine s.ip = .ok w → decode w = .error (.invalidParameterMode k d) → step s =
      .next { s with
        st := .faulted, flt := some { info := .invalidParameterMode k d, faultIp := s.ip, word := some w } })

/-! ## Each instruction completes -/

/-- Add (40_arith_compare.md sections 1 and 2): with its operands resolved and the sum in range, the destination cell becomes the
sum, `ip` advances by 4, and nothing else changes. -/
def Obligations.AddCompletes : Prop :=
  ∀ (s : State) (m1 m2 m3 : Mode) (a b : Word) (dest : Nat),
    resolveValue s.toEngine 1 m1 = .ok a → resolveValue s.toEngine 2 m2 = .ok b →
    resolveDestination s.toEngine 3 m3 = .ok dest → InRange (a.toInt + b.toInt) → (s.ip : Int) + 4 ≤ intMax →
    ∃ t, exec (.add m1 m2 m3) s = .next t ∧ (t.mem.read dest).toInt = a.toInt + b.toInt ∧
      t = { s with mem := s.mem.write dest (Word.ofZ (a.toInt + b.toInt)), ip := s.ip + 4, st := .ready }

/-- Mul (40_arith_compare.md sections 1 and 2): as Add, with the product. -/
def Obligations.MulCompletes : Prop :=
  ∀ (s : State) (m1 m2 m3 : Mode) (a b : Word) (dest : Nat),
    resolveValue s.toEngine 1 m1 = .ok a → resolveValue s.toEngine 2 m2 = .ok b →
    resolveDestination s.toEngine 3 m3 = .ok dest → InRange (a.toInt * b.toInt) → (s.ip : Int) + 4 ≤ intMax →
    ∃ t, exec (.mul m1 m2 m3) s = .next t ∧ (t.mem.read dest).toInt = a.toInt * b.toInt ∧
      t = { s with mem := s.mem.write dest (Word.ofZ (a.toInt * b.toInt)), ip := s.ip + 4, st := .ready }

/-- LessThan (40_arith_compare.md sections 1 and 2): the destination cell becomes 1 if `a < b` as signed integers, else 0. -/
def Obligations.LessThanCompletes : Prop :=
  ∀ (s : State) (m1 m2 m3 : Mode) (a b : Word) (dest : Nat),
    resolveValue s.toEngine 1 m1 = .ok a → resolveValue s.toEngine 2 m2 = .ok b →
    resolveDestination s.toEngine 3 m3 = .ok dest → (s.ip : Int) + 4 ≤ intMax →
    ∃ t, exec (.lessThan m1 m2 m3) s = .next t ∧
      t.mem.read dest = (if a.toInt < b.toInt then 1 else 0) ∧
      t = { s with mem := s.mem.write dest (if a.toInt < b.toInt then 1 else 0), ip := s.ip + 4, st := .ready }

/-- Equals (40_arith_compare.md sections 1 and 2): the destination cell becomes 1 if `a = b`, else 0. -/
def Obligations.EqualsCompletes : Prop :=
  ∀ (s : State) (m1 m2 m3 : Mode) (a b : Word) (dest : Nat),
    resolveValue s.toEngine 1 m1 = .ok a → resolveValue s.toEngine 2 m2 = .ok b →
    resolveDestination s.toEngine 3 m3 = .ok dest → (s.ip : Int) + 4 ≤ intMax →
    ∃ t, exec (.equals m1 m2 m3) s = .next t ∧
      t.mem.read dest = (if a = b then 1 else 0) ∧
      t = { s with mem := s.mem.write dest (if a = b then 1 else 0), ip := s.ip + 4, st := .ready }

/-- Input with a value waiting (41_io.md): the front value is popped and stored, `ip` advances by 2, the rest of the queue stays,
and nothing else changes. -/
def Obligations.InputCompletes : Prop :=
  ∀ (s : State) (m1 : Mode) (dest : Nat) (v : Word) (rest : List Word),
    resolveDestination s.toEngine 1 m1 = .ok dest → s.inq = v :: rest → (s.ip : Int) + 2 ≤ intMax →
    ∃ t, exec (.input m1) s = .next t ∧ t.mem.read dest = v ∧
      t = { s with mem := s.mem.write dest v, inq := rest, ip := s.ip + 2, st := .ready }

/-- Input on an empty queue (41_io.md): `st` becomes BlockedOnInput and nothing else changes. That its faults are checked first is
decision D6 of 92_eei_decisions.md. -/
def Obligations.InputSuspends : Prop :=
  ∀ (s : State) (m1 : Mode) (dest : Nat),
    resolveDestination s.toEngine 1 m1 = .ok dest → s.inq = [] → (s.ip : Int) + 2 ≤ intMax →
    exec (.input m1) s = .next { s with st := .blockedOnInput }

/-- Output of an engine a host drives (41_io.md): the value goes behind whatever the output queue holds, `ip` advances by 2, and
nothing else changes. -/
def Obligations.OutputCompletesForHost : Prop :=
  ∀ (s : State) (m1 : Mode) (a : Word),
    resolveValue s.toEngine 1 m1 = .ok a → (s.ip : Int) + 2 ≤ intMax → s.wiring = .host →
    exec (.output m1) s = .next { s with outq := s.outq ++ [a], ip := s.ip + 2, st := .ready }

/-- Output in a ring (45_orchestrator.md section 1): the value goes to the back of `Q[(i+1) mod K]` and to no other queue, with one
engine to its own; `LAST` becomes it just when that queue is `Q[0]`. -/
def Obligations.OutputFeedsNextEngine : Prop :=
  ∀ (s : State) (m1 : Mode) (a : Word),
    resolveValue s.toEngine 1 m1 = .ok a → (s.ip : Int) + 2 ≤ intMax → s.wiring = .ring →
    ∃ t, exec (.output m1) s = .next t ∧
      t.stations.map (·.inq) =
        (s.stations.map (·.inq)).modify ((s.index + 1) % s.stations.length) (fun q => q ++ [a]) ∧
      t.last = (if (s.index + 1) % s.stations.length = 0 then a else s.last) ∧
      t.toEngine = { s.toEngine with ip := s.ip + 2, st := .ready } ∧
      t.index = s.index ∧ t.wiring = s.wiring ∧ t.outq = s.outq ∧ t.ost = s.ost

/-- JumpIfTrue (42_jumps.md), both parameters resolved (decision D7): taken on any non-zero value, to a target that is not
negative; else `ip` advances by 3. Nothing else changes. -/
def Obligations.JumpIfTrueCompletes : Prop :=
  ∀ (s : State) (m1 m2 : Mode) (a b : Word),
    resolveValue s.toEngine 1 m1 = .ok a → resolveValue s.toEngine 2 m2 = .ok b →
    (a ≠ 0 → 0 ≤ b.toInt → exec (.jumpIfTrue m1 m2) s = .next { s with ip := b.toInt.toNat, st := .ready }) ∧
    (a = 0 → (s.ip : Int) + 3 ≤ intMax → exec (.jumpIfTrue m1 m2) s = .next { s with ip := s.ip + 3, st := .ready })

/-- JumpIfFalse (42_jumps.md), both parameters resolved (decision D7): taken on zero. -/
def Obligations.JumpIfFalseCompletes : Prop :=
  ∀ (s : State) (m1 m2 : Mode) (a b : Word),
    resolveValue s.toEngine 1 m1 = .ok a → resolveValue s.toEngine 2 m2 = .ok b →
    (a = 0 → 0 ≤ b.toInt → exec (.jumpIfFalse m1 m2) s = .next { s with ip := b.toInt.toNat, st := .ready }) ∧
    (a ≠ 0 → (s.ip : Int) + 3 ≤ intMax → exec (.jumpIfFalse m1 m2) s = .next { s with ip := s.ip + 3, st := .ready })

/-- AdjustRelativeBase (43_relbase_halt.md): the operand, resolved with the old `rb`, is added to `rb`; `ip` advances by 2. -/
def Obligations.AdjustRelativeBaseCompletes : Prop :=
  ∀ (s : State) (m1 : Mode) (a : Word),
    resolveValue s.toEngine 1 m1 = .ok a → InRange (s.rb.toInt + a.toInt) → (s.ip : Int) + 2 ≤ intMax →
    ∃ t, exec (.adjustRelativeBase m1) s = .next t ∧ t.rb.toInt = s.rb.toInt + a.toInt ∧
      t = { s with rb := Word.ofZ (s.rb.toInt + a.toInt), ip := s.ip + 2, st := .ready }

/-- Halt (43_relbase_halt.md): `st` becomes Halted and nothing else changes but `ip`, which advances by 1 (decision D9 of
92_eei_decisions.md). -/
def Obligations.HaltCompletes : Prop :=
  ∀ s : State, (s.ip : Int) + 1 ≤ intMax → exec .halt s = .next { s with ip := s.ip + 1, st := .halted }

/-! ## Where instructions trap -/

/-- A result out of range traps (decision D1 of 92_eei_decisions.md) and so does a negative taken jump target (decision D8), with
the exact value recorded and nothing else changed. -/
def Obligations.ComputedValueFaultsAreTaken : Prop :=
  ∀ (s : State) (m1 m2 m3 : Mode) (a : Word), resolveValue s.toEngine 1 m1 = .ok a →
    (¬ InRange (s.rb.toInt + a.toInt) →
      exec (.adjustRelativeBase m1) s = .next (s.takeFault (.arithmeticOverflow (s.rb.toInt + a.toInt)))) ∧
    ∀ b, resolveValue s.toEngine 2 m2 = .ok b →
      (a ≠ 0 → b.toInt < 0 → exec (.jumpIfTrue m1 m2) s = .next (s.takeFault (.negativeAddress b.toInt))) ∧
      (a = 0 → b.toInt < 0 → exec (.jumpIfFalse m1 m2) s = .next (s.takeFault (.negativeAddress b.toInt))) ∧
      ∀ dest, resolveDestination s.toEngine 3 m3 = .ok dest →
        (¬ InRange (a.toInt + b.toInt) →
          exec (.add m1 m2 m3) s = .next (s.takeFault (.arithmeticOverflow (a.toInt + b.toInt)))) ∧
        (¬ InRange (a.toInt * b.toInt) →
          exec (.mul m1 m2 m3) s = .next (s.takeFault (.arithmeticOverflow (a.toInt * b.toInt))))

/-- The first fault met is the one taken (the order of 30_encoding.md section 4, decisions D5 and D6 of 92_eei_decisions.md): of
parameter 1, then 2, then 3, before the result; and an Input that faults does so whether or not input is waiting. -/
def Obligations.FirstOperandFaultIsTaken : Prop :=
  ∀ (s : State) (m1 m2 m3 : Mode) (f : FaultInfo), m3 ≠ .immediate →
    (resolveValue s.toEngine 1 m1 = .error f →
      ∀ i ∈ [Instr.add m1 m2 m3, .mul m1 m2 m3, .lessThan m1 m2 m3, .equals m1 m2 m3, .jumpIfTrue m1 m2,
        .jumpIfFalse m1 m2, .output m1, .adjustRelativeBase m1], exec i s = .next (s.takeFault f)) ∧
    (∀ a, resolveValue s.toEngine 1 m1 = .ok a → resolveValue s.toEngine 2 m2 = .error f →
      ∀ i ∈ [Instr.add m1 m2 m3, .mul m1 m2 m3, .lessThan m1 m2 m3, .equals m1 m2 m3, .jumpIfTrue m1 m2,
        .jumpIfFalse m1 m2], exec i s = .next (s.takeFault f)) ∧
    (∀ a b, resolveValue s.toEngine 1 m1 = .ok a → resolveValue s.toEngine 2 m2 = .ok b →
      resolveDestination s.toEngine 3 m3 = .error f →
      ∀ i ∈ [Instr.add m1 m2 m3, .mul m1 m2 m3, .lessThan m1 m2 m3, .equals m1 m2 m3],
        exec i s = .next (s.takeFault f)) ∧
    (resolveDestination s.toEngine 1 m1 = .error f → exec (.input m1) s = .next (s.takeFault f))

/-- An advance past INT_MAX traps, after every other fault and before Input looks at its queue (step 6 of the order of 30_encoding.md
section 4, decisions D1 and D5 of 92_eei_decisions.md): the record holds the exact sum and nothing else changes. -/
def Obligations.SequencingOverflowIsTaken : Prop :=
  ∀ (s : State) (m1 m2 m3 : Mode) (a b : Word) (dest : Nat),
    (intMax < (s.ip : Int) + 1 → exec .halt s = .next (s.takeFault (.arithmeticOverflow (s.ip + 1)))) ∧
    (intMax < (s.ip : Int) + 2 →
      (resolveDestination s.toEngine 1 m1 = .ok dest →
        exec (.input m1) s = .next (s.takeFault (.arithmeticOverflow (s.ip + 2)))) ∧
      (resolveValue s.toEngine 1 m1 = .ok a →
        exec (.output m1) s = .next (s.takeFault (.arithmeticOverflow (s.ip + 2))) ∧
        (InRange (s.rb.toInt + a.toInt) →
          exec (.adjustRelativeBase m1) s = .next (s.takeFault (.arithmeticOverflow (s.ip + 2)))))) ∧
    (resolveValue s.toEngine 1 m1 = .ok a → resolveValue s.toEngine 2 m2 = .ok b →
      (intMax < (s.ip : Int) + 3 →
        (a = 0 → exec (.jumpIfTrue m1 m2) s = .next (s.takeFault (.arithmeticOverflow (s.ip + 3)))) ∧
        (a ≠ 0 → exec (.jumpIfFalse m1 m2) s = .next (s.takeFault (.arithmeticOverflow (s.ip + 3))))) ∧
      (intMax < (s.ip : Int) + 4 → resolveDestination s.toEngine 3 m3 = .ok dest →
        exec (.lessThan m1 m2 m3) s = .next (s.takeFault (.arithmeticOverflow (s.ip + 4))) ∧
        exec (.equals m1 m2 m3) s = .next (s.takeFault (.arithmeticOverflow (s.ip + 4))) ∧
        (InRange (a.toInt + b.toInt) →
          exec (.add m1 m2 m3) s = .next (s.takeFault (.arithmeticOverflow (s.ip + 4)))) ∧
        (InRange (a.toInt * b.toInt) →
          exec (.mul m1 m2 m3) s = .next (s.takeFault (.arithmeticOverflow (s.ip + 4))))))

/-- 60_exceptions.md R154: a decoded word of opcode 1, 2, 7 or 8 whose digit at 10^4 is 1, or of opcode 3 whose digit at 10^2 is 1,
raises InvalidDestinationMode with the parameter's index whatever its parameters hold; no other decoded word raises it. -/
def Obligations.InvalidDestinationModeAtDispatch : Prop :=
  ∀ (s : State) (w : Word) (i : Instr), memRead s.toEngine s.ip = .ok w → decode w = .ok i →
    (i.opcode ∈ [1, 2, 7, 8] → digit w.toInt.toNat 4 = 1 →
      fetchExec s = .next (s.takeFault (.invalidDestinationMode 3))) ∧
    (i.opcode = 3 → digit w.toInt.toNat 2 = 1 → fetchExec s = .next (s.takeFault (.invalidDestinationMode 1))) ∧
    (¬ (i.opcode ∈ [1, 2, 7, 8] ∧ digit w.toInt.toNat 4 = 1) → ¬ (i.opcode = 3 ∧ digit w.toInt.toNat 2 = 1) →
      ∀ t k, fetchExec s = .next t → t ≠ s.takeFault (.invalidDestinationMode k))

/-! ## Frames -/

/-- What Add, Mul, LessThan and Equals leave unchanged: every cell but the destination, and every piece of state but memory, `ip`
and `st`, and `flt` when they fault; a fault leaves memory and `ip` alone too (decision D11). -/
def Obligations.AluFrame : Prop :=
  ∀ (s t : State) (m1 m2 m3 : Mode),
    ∀ i ∈ [Instr.add m1 m2 m3, .mul m1 m2 m3, .lessThan m1 m2 m3, .equals m1 m2 m3], exec i s = .next t →
      (∀ a, (∀ dest, resolveDestination s.toEngine 3 m3 = .ok dest → a ≠ dest) → t.mem.read a = s.mem.read a) ∧
      (t.st = .faulted → t.mem = s.mem ∧ t.ip = s.ip) ∧ (t.st ≠ .faulted → t.flt = s.flt) ∧
      t.rb = s.rb ∧ t.memCapacity = s.memCapacity ∧ t.inq = s.inq ∧ t.outq = s.outq ∧ t.before = s.before ∧
      t.after = s.after ∧ t.wiring = s.wiring ∧ t.last = s.last ∧ t.ost = s.ost

/-- What Input leaves unchanged: every cell but the destination, and every piece of state but memory, the input queue, `ip` and
`st`, and `flt` when it faults; when it faults or suspends, memory, the queue and `ip` too. -/
def Obligations.InputFrame : Prop :=
  ∀ (s t : State) (m1 : Mode), exec (.input m1) s = .next t →
    (∀ a, (∀ dest, resolveDestination s.toEngine 1 m1 = .ok dest → a ≠ dest) → t.mem.read a = s.mem.read a) ∧
    (t.st ≠ .ready → t.mem = s.mem ∧ t.ip = s.ip ∧ t.inq = s.inq) ∧ (t.st ≠ .faulted → t.flt = s.flt) ∧
    t.rb = s.rb ∧ t.memCapacity = s.memCapacity ∧ t.outq = s.outq ∧ t.before = s.before ∧
    t.after = s.after ∧ t.wiring = s.wiring ∧ t.last = s.last ∧ t.ost = s.ost

/-- What Output leaves unchanged: all of memory and every register but `ip` and `st` (and `flt` when it faults); every other engine;
every queue but the one it appends to: with a host the host's output queue, in a ring the next engine's input queue (and the latch). -/
def Obligations.OutputFrame : Prop :=
  ∀ (s t : State) (m1 : Mode), exec (.output m1) s = .next t →
    t.mem = s.mem ∧ t.rb = s.rb ∧ t.memCapacity = s.memCapacity ∧ t.wiring = s.wiring ∧ t.ost = s.ost ∧
    (t.st ≠ .faulted → t.flt = s.flt) ∧
    t.before.map (·.toEngine) = s.before.map (·.toEngine) ∧ t.after.map (·.toEngine) = s.after.map (·.toEngine) ∧
    (s.wiring ≠ .ring → t.inq = s.inq ∧ t.before = s.before ∧ t.after = s.after ∧ t.last = s.last) ∧
    (s.wiring ≠ .host → t.outq = s.outq) ∧
    (s.wiring = .ring →
      ∀ j, j ≠ (s.index + 1) % s.stations.length →
        (t.stations.map (·.inq))[j]? = (s.stations.map (·.inq))[j]?) ∧
    (t.st = .faulted → t.ip = s.ip ∧ t.inq = s.inq ∧ t.outq = s.outq ∧ t.before = s.before ∧ t.after = s.after ∧
      t.last = s.last)

/-- What the jumps, AdjustRelativeBase and Halt leave unchanged: all of memory, every queue, every other engine, and every register
but `ip`, `st`, `flt` when they fault, and `rb` for AdjustRelativeBase that completes. -/
def Obligations.ControlFrame : Prop :=
  ∀ (s t : State) (m1 m2 : Mode),
    ∀ i ∈ [Instr.jumpIfTrue m1 m2, .jumpIfFalse m1 m2, .adjustRelativeBase m1, .halt], exec i s = .next t →
      t.mem = s.mem ∧ t.memCapacity = s.memCapacity ∧ t.inq = s.inq ∧ t.outq = s.outq ∧ t.before = s.before ∧
      t.after = s.after ∧ t.wiring = s.wiring ∧ t.last = s.last ∧ t.ost = s.ost ∧
      (i ≠ .adjustRelativeBase m1 → t.rb = s.rb) ∧
      (t.st = .faulted → t.ip = s.ip ∧ t.rb = s.rb) ∧ (t.st ≠ .faulted → t.flt = s.flt)

/-! ## Whole-machine rules -/

/-- A step of any instruction from any state answers a next state with one of four outcomes (44_engine_run.md section 2): completed,
halted (Halt alone), blocked (an Input on an empty queue, only `st` changed), or faulted. A fault is precise (decisions D10, D11,
D23): only `st` and `flt` change, and the record holds `ip` and the word at `ip`; its cause is never the loader's. -/
def Obligations.FourOutcomesOfAnInstruction : Prop :=
  ∀ (i : Instr) (s : State), ∃ t, exec i s = .next t ∧
    ((t.st = .ready ∧ i ≠ .halt ∧ t.flt = s.flt) ∨
     (t.st = .halted ∧ i = .halt ∧ t.flt = s.flt) ∨
     ((∃ m1, i = .input m1) ∧ s.inq = [] ∧ t = { s with st := .blockedOnInput }) ∨
     (∃ f, f ≠ .programParseError ∧
        t = { s with
          st := .faulted
          flt := some { info := f, faultIp := s.ip, word := (memRead s.toEngine s.ip).toOption } }))

/-- Who writes what (10_state.md sections 1 and 3): only AdjustRelativeBase changes `rb`; only an instruction with a destination
changes memory, and the extent never decreases; no instruction changes the capacity. -/
def Obligations.WritersOfMemoryAndRelativeBase : Prop :=
  ∀ (i : Instr) (s t : State), exec i s = .next t →
    (t.rb ≠ s.rb → ∃ m1, i = .adjustRelativeBase m1) ∧
    (t.mem ≠ s.mem → ∃ k m, i.destination = some (k, m) ∧ m ≠ .immediate) ∧
    s.mem.extent ≤ t.mem.extent ∧ t.memCapacity = s.memCapacity

/-- An instruction that completes leaves `ip` past its own words unless it is a jump (10_state.md section 2, 30_encoding.md R56's
lengths; for Halt decision D9). -/
def Obligations.AdvanceByLength : Prop :=
  ∀ (i : Instr) (s t : State), exec i s = .next t → (t.st = .ready ∨ t.st = .halted) →
    (∀ m1 m2, i ≠ .jumpIfTrue m1 m2 ∧ i ≠ .jumpIfFalse m1 m2) → t.ip = s.ip + i.length

/-- Fetch is coherent with stores (20_memory.md section 4): what an instruction stores at an address is what the next step reads there,
as data and, where `ip` points at it, as the instruction word it fetches. -/
def Obligations.StoredWordIsFetched : Prop :=
  ∀ (s t : State) (m1 m2 m3 : Mode) (a b r : Word) (dest : Nat),
    resolveValue s.toEngine 1 m1 = .ok a → resolveValue s.toEngine 2 m2 = .ok b →
    resolveDestination s.toEngine 3 m3 = .ok dest → sumResult a b = .ok r →
    exec (.add m1 m2 m3) s = .next t → t.st = .ready →
    memRead t.toEngine dest = .ok r ∧ (dest = t.ip → fetch t.toEngine = .ok r)

/-- An engine sees only its own state and its input queue (45_orchestrator.md section 4 on engines as threads): two machines that agree
on those, whatever the other engines, the queues it feeds, the wiring and the orchestrator hold, execute an instruction with the same effect on the
engine; with a host they also leave the same input queue. -/
def Obligations.EngineSeesOnlyItsStation : Prop :=
  ∀ (i : Instr) (s s' t : State), s.toStation = s'.toStation → exec i s = .next t →
    ∃ t', exec i s' = .next t' ∧ t'.toEngine = t.toEngine ∧
      (s.wiring = .host → s'.wiring = .host → t'.inq = t.inq)

/-- For a program `extent` is unobservable (10_state.md section 1): a machine whose memory is in canonical form and one that differs
from it only in a larger extent take the same step, up to the extent again. -/
def Obligations.ExtentIsUnobservable : Prop :=
  ∀ (s t : State) (n : Nat), s.mem.wf → s.mem.extent ≤ n → s.wiring = .host → step s = .next t →
    ∃ n', t.mem.wf ∧ t.mem.extent ≤ n' ∧
      step { s with mem := { s.mem with extent := n } } = .next { t with mem := { t.mem with extent := n' } }

/-! ## The engine's state machine and `run` -/

/-- The execution state machine (44_engine_run.md section 4, with decision D10): what one iteration of `run` does to `st`. From an engine
that meets the invariant a blocked one never faults. -/
def Obligations.ExecutionStateMachine : Prop :=
  ∀ s : State, s.toEngine.Inv → ∃ t, s.engineTurn = .next t ∧
    (s.st = .blockedOnInput → s.inq = [] → t = s) ∧
    (s.st = .blockedOnInput → s.inq ≠ [] → t.st = .ready) ∧
    (s.st = .halted → t = s) ∧ (s.st = .faulted → t = s)

/-- 44_engine_run.md R113: `run` on a halted engine returns at once with no effect, with result Ok and the engine still Halted. -/
def Obligations.RunOnHaltedDoesNothing : Prop :=
  ∀ (fuel : Nat) (s : State), s.st = .halted → s.run fuel = some (.ok, s)

/-- 44_engine_run.md R114: `run` on a blocked engine with an empty queue returns Ok and changes nothing; and in a state that meets the
invariant re-trying the pending Input would give the same state. -/
def Obligations.RunOnBlockedWithoutInputDoesNothing : Prop :=
  ∀ (fuel : Nat) (s : State), s.st = .blockedOnInput → s.inq = [] →
    s.run fuel = some (.ok, s) ∧ (s.toEngine.Inv → fetchExec s = .next s)

/-- `run` on a faulted engine returns its record again and changes nothing (44_engine_run.md section 3, decision D10); the machine's
step reports the same record (the model's choice, log entry 7). -/
def Obligations.RunOnFaultedReportsAgain : Prop :=
  ∀ (fuel : Nat) (s : State) (r : FaultRecord), s.st = .faulted → s.flt = some r →
    s.run fuel = some (.fault (some r), s) ∧ (s.wiring = .host → step s = .fault (.engineFault r))

/-- Resume (44_engine_run.md section 3): `run` on a blocked engine with input first completes exactly the pending Input, popping one
value, and then goes on. -/
def Obligations.ResumeCompletesTheInput : Prop :=
  ∀ (fuel : Nat) (s : State) (v : Word) (rest : List Word), s.toEngine.Inv → s.st = .blockedOnInput → s.inq = v :: rest →
    ∃ m1 dest, fetchDecode s.toEngine = .ok (.input m1) ∧ resolveDestination s.toEngine 1 m1 = .ok dest ∧
      s.run (fuel + 1) =
        State.runLoop fuel { s with mem := s.mem.write dest v, inq := rest, ip := s.ip + 2, st := .ready }

/-- What `run` returns (44_engine_run.md section 3): Ok just with `st` Halted or BlockedOnInput, a fault just with `st` Faulted and its
record. -/
def Obligations.RunResultAgreesWithState : Prop :=
  ∀ (fuel : Nat) (s t : State) (r : RunResult), s.run fuel = some (r, t) →
    (r = .ok ∧ (t.st = .halted ∨ t.st = .blockedOnInput)) ∨ (r = .fault t.flt ∧ t.st = .faulted)

/-- Effects of one `run` on the queues of an engine a host drives (44_engine_run.md section 3): it pops from the front of the input queue
and appends to the back of the output queue; everything else in them stays, in order. -/
def Obligations.RunPopsFrontAndAppendsBack : Prop :=
  ∀ (fuel : Nat) (s t : State) (r : RunResult), s.wiring = .host → s.run fuel = some (r, t) →
    (∃ popped, s.inq = popped ++ t.inq) ∧ (∃ emitted, t.outq = s.outq ++ emitted)

/-- `run` is the iteration of the machine's step (44_engine_run.md sections 2 and 3): whatever `run` returns, the step reaches it; and
more fuel changes no answer, so that fuel is no outcome. The steps (log entry 7) and the fuel (log entry 16) are the model's choice. -/
def Obligations.RunIsIteratedStep : Prop :=
  ∀ (fuel : Nat) (s t : State) (r : RunResult), s.wiring = .host → s.run fuel = some (r, t) →
    (∃ n, Host.Core.run Sys2Proof.core n s = .next t) ∧ (∀ more, s.run (fuel + more) = some (r, t))

/-! ## Invariants -/

/-- Every step keeps the invariant of 10_state.md section 7 on every engine, and the orchestrator's status in agreement with them. -/
def Obligations.StepKeepsInvariant : Prop :=
  ∀ s t : State, s.Inv → step s = .next t → t.Inv

/-- The invariant holds at reset. -/
def Obligations.ResetMeetsInvariant : Prop := State.reset.Inv

/-- Every engine `new` builds, and the machine `boot` or `Orchestrate` leaves (a failed one included), meets the invariant, for every
capacity the spec allows. -/
def Obligations.ConstructedMachinesMeetInvariant : Prop :=
  ∀ (program : List Word) (capacity : Option Nat), (∀ c, capacity = some c → c ≤ 2 ^ 63) →
    (∀ e, Engine.new program capacity = .ok e → e.Inv) ∧
    (∀ queue s, State.boot program capacity queue = .ok s → s.Inv) ∧
    (∀ phase0 phases f0, (State.orchestrate program capacity phase0 phases f0).Inv)

/-- Once an engine is Halted or Faulted no part of it changes again (10_state.md section 7 f, decision D10), in a ring as alone, whichever
engine steps. -/
def Obligations.StoppedEnginesNeverChange : Prop :=
  ∀ (s t : State) (j : Nat) (x : Station), step s = .next t → s.stations[j]? = some x →
    (x.st = .halted ∨ x.st = .faulted) →
    ∃ y, t.stations[j]? = some y ∧ y.toEngine = x.toEngine

/-- A step reaches no engine but the current one (45_orchestrator.md section 1, 10_state.md section 7): every other engine keeps its
whole state, and of the queues only the current engine's own may lose its front and only the next engine's may gain one value. -/
def Obligations.StepReachesOnlyItsStation : Prop :=
  ∀ s t : State, step s = .next t → s.wiring = .ring →
    (∀ j, j ≠ s.index → (t.stations.map (·.toEngine))[j]? = (s.stations.map (·.toEngine))[j]?) ∧
    (∀ j, j ≠ s.index → j ≠ (s.index + 1) % s.stations.length →
      (t.stations.map (·.inq))[j]? = (s.stations.map (·.inq))[j]?) ∧
    (∀ j q, j ≠ s.index → (s.stations.map (·.inq))[j]? = some q →
      ∃ vs, (t.stations.map (·.inq))[j]? = some (q ++ vs) ∧ vs.length ≤ 1)

/-! ## Reset, construction and the ring -/

/-- The reset state (70_reset_and_hazards.md section 1) and `new` (44_engine_run.md section 1): a copy of the image with everything past
it reading 0, `ip` 0, `rb` 0, Ready, no fault record; an image longer than the capacity gives no engine (decision D25). The image and the
capacity of `State.reset` are the model's choice (log entries 4 and 5). -/
def Obligations.NewLoadsTheProgram : Prop :=
  (State.reset.ip = 0 ∧ State.reset.rb = 0 ∧ State.reset.st = .ready ∧ State.reset.flt = none ∧
    ∀ a, State.reset.mem.read a = 0) ∧
  ∀ (program : List Word) (capacity : Option Nat),
    (program.length ≤ capacity.getD (2 ^ 63) →
      ∃ e, Engine.new program capacity = .ok e ∧ (∀ a, e.mem.read a = program.getD a 0) ∧
        e.mem.extent = program.length ∧ e.memCapacity = capacity ∧ e.ip = 0 ∧ e.rb = 0 ∧ e.st = .ready ∧ e.flt = none) ∧
    (capacity.getD (2 ^ 63) < program.length →
      Engine.new program capacity = .error (.memoryCapacityExceeded (program.length - 1)))

/-- Seeding (45_orchestrator.md section 1): all engines are built from the one image, `Q[i]` holds `phase[i]`, `Q[0]` also `F0` behind its
phase, `LAST` is `F0` (decision D18), and engine 0 is invoked first. On a fault of `new` the orchestrator is Failed, no engine exists, and that
fault is the answer; that the machine's step is where it is answered is the model's choice (log entry 21). -/
def Obligations.OrchestrateSeedsTheRing : Prop :=
  ∀ (program : List Word) (capacity : Option Nat) (phase0 : Word) (phases : List Word) (f0 : Word),
    let s := State.orchestrate program capacity phase0 phases f0
    (∀ f, Engine.new program capacity = .error f →
      s.ost = .failed ∧ s.stations = [] ∧ step s = .fault (.seedingFault f)) ∧
    (∀ e, Engine.new program capacity = .ok e →
      s.stations.map (·.toEngine) = List.replicate (phases.length + 1) e ∧
        s.stations.map (·.inq) = [phase0, f0] :: phases.map (fun p => [p]) ∧
        s.last = f0 ∧ s.ost = .seeded ∧ s.index = 0 ∧ s.wiring = .ring)

/-- The order of Drive and its stop test (45_orchestrator.md section 2): while the current engine's `run` goes on the ring stays at it; when
it returns the next index is invoked, after the last one index 0, unless every engine is Halted after a complete round, and only then the
ring is Done. That this happens in the very step whose run iteration returns is the model's choice (log entry 10). -/
def Obligations.RingOrderAndStopTest : Prop :=
  ∀ s t u : State, s.wiring = .ring → s.ost = .seeded → s.engineTurn = .next u → step s = .next t →
    (u.st = .ready → t = u) ∧
    (u.st = .halted ∨ u.st = .blockedOnInput →
      t.stations = u.stations ∧ t.last = u.last ∧
      (s.after ≠ [] → t.index = s.index + 1 ∧ t.ost = .seeded) ∧
      (s.after = [] → (∃ x ∈ u.stations, x.st ≠ .halted) → t.index = 0 ∧ t.ost = .seeded) ∧
      (s.after = [] → (∀ x ∈ u.stations, x.st = .halted) → t.ost = .done))

/-- A fault stops the ring (45_orchestrator.md section 2, decision D17): the orchestrator is Failed at the faulting engine, no other engine
is invoked, and the next step reports that engine's index and record. That a Failed ring's step answers them is the model's choice (log entry 10). -/
def Obligations.RingFaultStopsDrive : Prop :=
  ∀ s t : State, s.Inv → s.wiring = .ring → s.ost = .seeded → step s = .next t → t.ost = .failed →
    t.index = s.index ∧ t.before = s.before ∧ t.after = s.after ∧ t.last = s.last ∧
    ∃ r, t.flt = some r ∧ step t = .fault (.driveFault s.index r)

/-- A ring in which every engine is Halted or blocked with an empty queue, and not all are Halted, hangs (45_orchestrator.md section 3,
decision D20): no number of steps changes an engine, a queue or the latch, and Drive never ends. That a step is one iteration of a `run` call
of Drive is the model's choice (log entries 7 and 10). -/
def Obligations.StuckRingHangs : Prop :=
  ∀ s : State, s.wiring = .ring → s.ost = .seeded →
    (∀ x ∈ s.stations, x.st = .halted ∨ (x.st = .blockedOnInput ∧ x.inq = [])) →
    (∃ x ∈ s.stations, x.st ≠ .halted) →
    ∀ n, ∃ t, Host.Core.run Sys2Proof.core n s = .next t ∧ t.ost = .seeded ∧ t.stations = s.stations ∧ t.last = s.last

/-- Drive is the iteration of the machine's step (45_orchestrator.md section 2): whatever Drive, written as rounds of `run` calls in index
order, returns from a seeded ring, the step reaches; its result is `LAST` of a ring whose engines are all Halted, or the index and record of a faulted
engine (decision D17). The steps (log entries 7 and 10) and the fuel (log entry 16) are the model's choice. -/
def Obligations.DriveIsIteratedStep : Prop :=
  ∀ (fuel rounds : Nat) (s t : State) (r : DriveResult), s.wiring = .ring → s.ost = .seeded →
    State.drive fuel rounds s = some (r, t) →
    (∃ n, Host.Core.run Sys2Proof.core n s = .next t) ∧
    ((r = .ok t.last ∧ t.ost = .done ∧ ∀ x ∈ t.stations, x.st = .halted) ∨
     (r = .fault t.index t.flt ∧ t.ost = .failed ∧ t.st = .faulted))
end

