-- ==== Sys2Proof/Laws/Decode.lean ====
section
/-!
SUPPORT. Digits, modes and the opcode map.
-/

namespace Sys2Proof

theorem Mode.toDigit_le (m : Mode) : m.toDigit ≤ 2 := by cases m <;> decide

theorem Mode.toDigit_inj {a b : Mode} (h : a.toDigit = b.toDigit) : a = b := by
  revert h
  cases a <;> cases b <;> decide

theorem Mode.exists_of_le {d : Nat} (h : d ≤ 2) : ∃ m : Mode, d = m.toDigit := by
  match d with
  | 0 => exact ⟨.position, rfl⟩
  | 1 => exact ⟨.immediate, rfl⟩
  | 2 => exact ⟨.relative, rfl⟩

theorem Mode.ofDigit_eq_some_iff {d : Nat} {m : Mode} : Mode.ofDigit d = some m ↔ d = m.toDigit := by
  match d with
  | 0 => cases m <;> decide
  | 1 => cases m <;> decide
  | 2 => cases m <;> decide
  | d + 3 => cases m <;> simp [Mode.ofDigit, Mode.toDigit]

/-- A mode is read just when its digit is that mode's (30_encoding.md R51, R52). -/
theorem modeOf_ok_iff {n k : Nat} {m : Mode} : modeOf n k = .ok m ↔ digit n (k + 1) = m.toDigit := by
  rw [← Mode.ofDigit_eq_some_iff]
  unfold modeOf
  cases Mode.ofDigit (digit n (k + 1)) <;> simp

theorem modeOf_error {n k : Nat} (h : 2 < digit n (k + 1)) :
    modeOf n k = .error (.invalidParameterMode k (digit n (k + 1))) := by
  have hn : Mode.ofDigit (digit n (k + 1)) = none := by
    cases hm : Mode.ofDigit (digit n (k + 1)) with
    | none => rfl
    | some m =>
      have h1 := Mode.ofDigit_eq_some_iff.1 hm
      have h2 := m.toDigit_le
      omega
  simp [modeOf, hn]

/-- The opcode map agrees with `Instr.opcode` and keeps the modes of the parameters the instruction has. -/
theorem instrForm_some {c : Nat} {build : Mode → Mode → Mode → Instr} (h : instrForm c = some build) (m1 m2 m3 : Mode) :
    c = (build m1 m2 m3).opcode ∧
      ∀ (j : Nat) (m : Mode), (build m1 m2 m3).modes[j]? = some m → [m1, m2, m3][j]? = some m := by
  unfold instrForm at h
  split at h <;> simp only [Option.some.injEq, reduceCtorEq] at h <;> subst h <;> refine ⟨rfl, ?_⟩ <;> intro j m <;>
    rcases j with _ | _ | _ | j <;> simp [Instr.modes]

/-- Every instruction is built by its opcode from any modes that extend its own. -/
theorem instrForm_opcode (i : Instr) : ∃ build, instrForm i.opcode = some build ∧
    ∀ m1 m2 m3 : Mode, (∀ (j : Nat) (m : Mode), i.modes[j]? = some m → [m1, m2, m3][j]? = some m) → build m1 m2 m3 = i := by
  cases i <;> refine ⟨_, rfl, ?_⟩ <;> intro m1 m2 m3 h <;> have h0 := h 0 <;> have h1 := h 1 <;> have h2 := h 2 <;>
    simp_all [Instr.modes]

/-- Every opcode is one of the ten (30_encoding.md R56). -/
theorem Instr.opcode_mem (i : Instr) : i.opcode ∈ [1, 2, 3, 4, 5, 6, 7, 8, 9, 99] := by
  cases i <;> simp [Instr.opcode]

/-- An instruction has at most three parameters. -/
theorem Instr.modes_length_le (i : Instr) : i.modes.length ≤ 3 := by
  cases i <;> simp [Instr.modes]

/-- A decoded instruction and its modes. -/
theorem decodeNat_ok {w : Word} {n : Nat} {i : Instr} (h : decodeNat w n = .ok i) :
    ∃ build m1 m2 m3, instrForm (n % 100) = some build ∧ modeOf n 1 = .ok m1 ∧ modeOf n 2 = .ok m2 ∧ modeOf n 3 = .ok m3 ∧
      i = build m1 m2 m3 := by
  unfold decodeNat at h
  split at h
  · cases h
  · rename_i build hb
    cases h1 : modeOf n 1 with
    | error e => simp [h1, bind, Except.bind] at h
    | ok m1 =>
      cases h2 : modeOf n 2 with
      | error e => simp [h1, h2, bind, Except.bind] at h
      | ok m2 =>
        cases h3 : modeOf n 3 with
        | error e => simp [h1, h2, h3, bind, Except.bind] at h
        | ok m3 =>
          simp only [h1, h2, h3, bind, Except.bind, Except.ok.injEq] at h
          exact ⟨build, m1, m2, m3, hb, rfl, rfl, rfl, h.symm⟩

end Sys2Proof
end

