-- ==== Sys2Proof/Laws/Word.lean ====
section
/-!
SUPPORT. Words as integers, and `chk64`.
-/

namespace Sys2Proof

theorem Word.inRange (w : Word) : InRange w.toInt := by
  have h1 := Int64.le_toInt w
  have h2 := Int64.toInt_lt w
  constructor <;> simp only [intMin, intMax] <;> omega

theorem Word.toInt_ofZ {z : Int} (h : InRange z) : (Word.ofZ z).toInt = z := by
  obtain ⟨h1, h2⟩ := h
  simp only [intMin, intMax] at h1 h2
  exact Int64.toInt_ofInt_of_le (by omega) (by omega)

theorem Word.eq_iff_toInt (a b : Word) : a = b ↔ a.toInt = b.toInt := Int64.toInt_inj.symm

theorem Word.eq_zero_iff (a : Word) : a = 0 ↔ a.toInt = 0 := by
  rw [Word.eq_iff_toInt, Int64.toInt_zero]

end Sys2Proof

namespace Sys2Proof.Machine

/-! ## `Except` as the machine uses it -/

theorem bind_ok_iff {α β : Type} {x : Except FaultInfo α} {f : α → Except FaultInfo β} {b : β} :
    (x >>= f) = .ok b ↔ ∃ a, x = .ok a ∧ f a = .ok b := by
  cases x with
  | error e => simp [bind, Except.bind]
  | ok a => simp [bind, Except.bind]

theorem bind_error_iff {α β : Type} {x : Except FaultInfo α} {f : α → Except FaultInfo β} {e : FaultInfo} :
    (x >>= f) = .error e ↔ x = .error e ∨ ∃ a, x = .ok a ∧ f a = .error e := by
  cases x with
  | error d => simp [bind, Except.bind]
  | ok a => simp [bind, Except.bind]

@[simp] theorem ok_bind {α β : Type} (a : α) (f : α → Except FaultInfo β) : (Except.ok a >>= f) = f a := rfl

@[simp] theorem error_bind {α β : Type} (e : FaultInfo) (f : α → Except FaultInfo β) :
    ((Except.error e : Except FaultInfo α) >>= f) = .error e := rfl

/-! ## `chk64` -/

theorem chk64_ok {z : Int} (h : InRange z) : chk64 z = .ok z := by
  obtain ⟨h1, h2⟩ := h
  simp only [chk64]
  exact if_neg (by omega)

theorem chk64_error {z : Int} (h : ¬ InRange z) : chk64 z = .error (.arithmeticOverflow z) := by
  simp only [InRange] at h
  simp only [chk64]
  exact if_pos (by omega)

theorem chk64_ok_iff {z y : Int} : chk64 z = .ok y ↔ y = z ∧ InRange z := by
  by_cases h : InRange z
  · rw [chk64_ok h, Except.ok.injEq]
    exact ⟨fun e => ⟨e.symm, h⟩, fun e => e.1.symm⟩
  · rw [chk64_error h]
    exact ⟨fun e => (nomatch e), fun e => absurd e.2 h⟩

theorem chk64_error_iff {z : Int} {f : FaultInfo} :
    chk64 z = .error f ↔ f = .arithmeticOverflow z ∧ ¬ InRange z := by
  by_cases h : InRange z
  · rw [chk64_ok h]
    exact ⟨fun e => (nomatch e), fun e => absurd h e.2⟩
  · rw [chk64_error h, Except.error.injEq]
    exact ⟨fun e => ⟨e.symm, h⟩, fun e => e.1.symm⟩

end Sys2Proof.Machine
end

