-- ==== Sys2Proof/Laws/Memory.lean ====
section
/-!
SUPPORT. Memory: reads after writes, and that every memory operation keeps the canonical form.
-/

namespace Sys2Proof.Machine

/-! ## Cells -/

theorem lookupCell_insertCell_self (a : Nat) (v : Word) (cs : List (Nat × Word)) (h : ∀ c ∈ cs, c.1 ≠ a) :
    lookupCell (insertCell a v cs) a = v := by
  induction cs with
  | nil => simp [insertCell, lookupCell]
  | cons c cs ih =>
    obtain ⟨b, w⟩ := c
    have hb : b ≠ a := h (b, w) (by simp)
    simp only [insertCell]
    split
    · simp [lookupCell]
    · simp only [lookupCell, if_neg hb]
      exact ih fun c hc => h c (by simp [hc])

theorem lookupCell_insertCell_of_ne {a b : Nat} (hab : b ≠ a) (v : Word) (cs : List (Nat × Word)) :
    lookupCell (insertCell a v cs) b = lookupCell cs b := by
  induction cs with
  | nil => simp [insertCell, lookupCell, hab.symm]
  | cons c cs ih =>
    obtain ⟨k, w⟩ := c
    simp only [insertCell]
    split
    · simp [lookupCell, hab.symm]
    · simp only [lookupCell, ih]

theorem lookupCell_filter {p : Nat × Word → Bool} {b : Nat} (hp : ∀ w, p (b, w) = true) (cs : List (Nat × Word)) :
    lookupCell (cs.filter p) b = lookupCell cs b := by
  induction cs with
  | nil => rfl
  | cons c cs ih =>
    obtain ⟨k, w⟩ := c
    by_cases hk : k = b
    · subst hk
      simp [hp, lookupCell]
    · by_cases hpk : p (k, w)
      · simp [hpk, lookupCell, hk, ih]
      · simp [hpk, lookupCell, hk, ih]

theorem lookupCell_eq_zero {cs : List (Nat × Word)} {a : Nat} (h : ∀ c ∈ cs, c.1 ≠ a) : lookupCell cs a = 0 := by
  induction cs with
  | nil => rfl
  | cons c cs ih =>
    obtain ⟨b, w⟩ := c
    have hb : b ≠ a := h (b, w) (by simp)
    simp only [lookupCell, if_neg hb]
    exact ih fun c hc => h c (by simp [hc])

theorem mem_insertCell {a : Nat} {v : Word} {cs : List (Nat × Word)} {c : Nat × Word} :
    c ∈ insertCell a v cs ↔ c = (a, v) ∨ c ∈ cs := by
  induction cs with
  | nil => simp [insertCell]
  | cons d cs ih =>
    simp only [insertCell]
    split
    · simp
    · simp only [List.mem_cons, ih]
      tauto

theorem pairwise_insertCell {a : Nat} {v : Word} {cs : List (Nat × Word)}
    (h : cs.Pairwise fun c d => c.1 < d.1) (ha : ∀ c ∈ cs, c.1 ≠ a) :
    (insertCell a v cs).Pairwise fun c d => c.1 < d.1 := by
  induction cs with
  | nil => simp [insertCell]
  | cons c cs ih =>
    obtain ⟨b, w⟩ := c
    have hb : b ≠ a := ha (b, w) (by simp)
    obtain ⟨h1, h2⟩ := List.pairwise_cons.1 h
    simp only [insertCell]
    split
    · rename_i hlt
      refine List.pairwise_cons.2 ⟨fun d hd => ?_, h⟩
      rcases List.mem_cons.1 hd with rfl | hd
      · exact hlt
      · exact Nat.lt_trans hlt (h1 d hd)
    · rename_i hge
      refine List.pairwise_cons.2 ⟨fun d hd => ?_, ih h2 fun c hc => ha c (by simp [hc])⟩
      rcases mem_insertCell.1 hd with rfl | hd
      · show b < a
        omega
      · exact h1 d hd

/-! ## Reads after writes -/

theorem Memory.write_extent (m : Memory) (a : Nat) (v : Word) : (m.write a v).extent = max m.extent (a + 1) := rfl

theorem Memory.read_of_ge {m : Memory} {a : Nat} (h : m.extent ≤ a) : m.read a = 0 := if_neg (by omega)

theorem Memory.read_of_lt {m : Memory} {a : Nat} (h : a < m.extent) : m.read a = lookupCell m.cells a := if_pos h

@[simp] theorem Memory.read_write_self (m : Memory) (a : Nat) (v : Word) : (m.write a v).read a = v := by
  have hlt : a < (m.write a v).extent := by rw [Memory.write_extent]; omega
  have hne : ∀ c ∈ m.cells.filter (fun c => decide (c.1 ≠ a) && decide (c.1 < m.extent)), c.1 ≠ a := by
    intro c hc
    have := (List.mem_filter.1 hc).2
    simp only [Bool.and_eq_true, decide_eq_true_eq] at this
    exact this.1
  rw [Memory.read_of_lt hlt]
  simp only [Memory.write]
  split
  · rename_i hv
    rw [hv]
    exact lookupCell_eq_zero hne
  · exact lookupCell_insertCell_self a v _ hne

theorem Memory.read_write_of_ne (m : Memory) {a b : Nat} (v : Word) (h : b ≠ a) : (m.write a v).read b = m.read b := by
  have key : b < m.extent →
      lookupCell (m.write a v).cells b = lookupCell m.cells b := by
    intro hb
    have hf := lookupCell_filter (p := fun c => decide (c.1 ≠ a) && decide (c.1 < m.extent)) (b := b)
      (by simp [h, hb]) m.cells
    simp only [Memory.write]
    split
    · exact hf
    · rw [lookupCell_insertCell_of_ne h, hf]
  have key2 : m.extent ≤ b → lookupCell (m.write a v).cells b = 0 := by
    intro hb
    refine lookupCell_eq_zero fun c hc => ?_
    simp only [Memory.write] at hc
    split at hc
    · have := (List.mem_filter.1 hc).2
      simp only [Bool.and_eq_true, decide_eq_true_eq] at this
      omega
    · rcases mem_insertCell.1 hc with rfl | hc
      · exact h.symm
      · have := (List.mem_filter.1 hc).2
        simp only [Bool.and_eq_true, decide_eq_true_eq] at this
        omega
  by_cases hb : b < m.extent
  · rw [Memory.read_of_lt hb, Memory.read_of_lt (by rw [Memory.write_extent]; omega), key hb]
  · rw [Memory.read_of_ge (Nat.le_of_not_lt hb)]
    by_cases hb' : b < (m.write a v).extent
    · rw [Memory.read_of_lt hb', key2 (Nat.le_of_not_lt hb)]
    · exact Memory.read_of_ge (Nat.le_of_not_lt hb')

/-! ## The canonical form -/

theorem Memory.wf_write {m : Memory} (a : Nat) (v : Word) (h : m.wf) : (m.write a v).wf := by
  obtain ⟨hp, hc⟩ := h
  have hfp := hp.filter fun c => decide (c.1 ≠ a) && decide (c.1 < m.extent)
  have hmem : ∀ c ∈ m.cells.filter (fun c => decide (c.1 ≠ a) && decide (c.1 < m.extent)),
      c.1 ≠ a ∧ c.2 ≠ 0 ∧ c.1 < max m.extent (a + 1) := by
    intro c hcm
    obtain ⟨h1, h2⟩ := List.mem_filter.1 hcm
    simp only [Bool.and_eq_true, decide_eq_true_eq] at h2
    exact ⟨h2.1, (hc c h1).1, by omega⟩
  simp only [Memory.wf, Memory.write]
  split
  · exact ⟨hfp, fun c hcm => (hmem c hcm).2⟩
  · rename_i hv
    refine ⟨pairwise_insertCell hfp fun c hcm => (hmem c hcm).1, fun c hcm => ?_⟩
    rcases mem_insertCell.1 hcm with rfl | hcm
    · refine ⟨hv, ?_⟩
      show a < max m.extent (a + 1)
      omega
    · exact (hmem c hcm).2

theorem Memory.wf_storeWords (ws : List Word) : ∀ (m : Memory) (a : Nat), m.wf → (m.storeWords a ws).wf := by
  induction ws with
  | nil => exact fun _ _ h => h
  | cons w ws ih => exact fun m a h => ih (m.write a w) (a + 1) (m.wf_write a w h)

theorem mem_cellsOfProgram {ws : List Word} : ∀ {i : Nat} {c : Nat × Word}, c ∈ cellsOfProgram i ws →
    c.2 ≠ 0 ∧ i ≤ c.1 ∧ c.1 < i + ws.length := by
  induction ws with
  | nil => simp [cellsOfProgram]
  | cons w ws ih =>
    intro i c hc
    simp only [cellsOfProgram] at hc
    split at hc
    · have := ih hc
      refine ⟨this.1, by omega, ?_⟩
      simp only [List.length_cons]
      omega
    · rename_i hw
      rcases List.mem_cons.1 hc with rfl | hc
      · exact ⟨hw, Nat.le_refl _, by simp⟩
      · have := ih hc
        refine ⟨this.1, by omega, ?_⟩
        simp only [List.length_cons]
        omega

theorem pairwise_cellsOfProgram (ws : List Word) : ∀ i, (cellsOfProgram i ws).Pairwise fun c d => c.1 < d.1 := by
  induction ws with
  | nil => simp [cellsOfProgram]
  | cons w ws ih =>
    intro i
    simp only [cellsOfProgram]
    split
    · exact ih (i + 1)
    · exact List.pairwise_cons.2 ⟨fun d hd => (mem_cellsOfProgram hd).2.1, ih (i + 1)⟩

theorem Memory.wf_ofProgram (program : List Word) : (Memory.ofProgram program).wf := by
  refine ⟨pairwise_cellsOfProgram program 0, fun c hc => ?_⟩
  have := mem_cellsOfProgram hc
  exact ⟨this.1, by simpa [Memory.ofProgram] using this.2.2⟩

theorem lookupCell_cellsOfProgram (ws : List Word) : ∀ i a, lookupCell (cellsOfProgram i ws) (i + a) = ws.getD a 0 := by
  induction ws with
  | nil => intro i a; simp [cellsOfProgram, lookupCell]
  | cons w ws ih =>
    intro i a
    cases a with
    | zero =>
      have hz : lookupCell (cellsOfProgram (i + 1) ws) i = 0 :=
        lookupCell_eq_zero fun c hc => by have := (mem_cellsOfProgram hc).2.1; omega
      by_cases h : w = 0
      · simp [cellsOfProgram, h, hz]
      · simp [cellsOfProgram, h, lookupCell]
    | succ a =>
      have hs := ih (i + 1) a
      rw [show i + 1 + a = i + (a + 1) by omega] at hs
      by_cases h : w = 0
      · simpa [cellsOfProgram, h] using hs
      · simpa [cellsOfProgram, h, lookupCell] using hs

/-- A copy of the image reads as the image, and as 0 past it. -/
theorem Memory.read_ofProgram (program : List Word) (a : Nat) : (Memory.ofProgram program).read a = program.getD a 0 := by
  by_cases h : a < program.length
  · rw [Memory.read_of_lt h]
    simpa [Memory.ofProgram] using lookupCell_cellsOfProgram program 0 a
  · rw [Memory.read_of_ge (by simpa [Memory.ofProgram] using h)]
    simp [List.getElem?_eq_none (Nat.le_of_not_lt h)]

theorem State.reset_mem_wf : State.reset.mem.wf := by decide

end Sys2Proof.Machine
end

