-- ==== Sys2Proof/Laws/State.lean ====
section
/-!
SUPPORT. What each named update of the state does to each field: one lemma per field per update.
-/

namespace Sys2Proof.Machine

/-! ## `State.setMem` -/

@[simp] theorem State.setMem_mem (s : State) (m : Memory) : (s.setMem m).mem = m := rfl
@[simp] theorem State.setMem_memCapacity (s : State) (m : Memory) : (s.setMem m).memCapacity = s.memCapacity := rfl
@[simp] theorem State.setMem_ip (s : State) (m : Memory) : (s.setMem m).ip = s.ip := rfl
@[simp] theorem State.setMem_rb (s : State) (m : Memory) : (s.setMem m).rb = s.rb := rfl
@[simp] theorem State.setMem_st (s : State) (m : Memory) : (s.setMem m).st = s.st := rfl
@[simp] theorem State.setMem_flt (s : State) (m : Memory) : (s.setMem m).flt = s.flt := rfl
@[simp] theorem State.setMem_inq (s : State) (m : Memory) : (s.setMem m).inq = s.inq := rfl
@[simp] theorem State.setMem_before (s : State) (m : Memory) : (s.setMem m).before = s.before := rfl
@[simp] theorem State.setMem_after (s : State) (m : Memory) : (s.setMem m).after = s.after := rfl
@[simp] theorem State.setMem_wiring (s : State) (m : Memory) : (s.setMem m).wiring = s.wiring := rfl
@[simp] theorem State.setMem_outq (s : State) (m : Memory) : (s.setMem m).outq = s.outq := rfl
@[simp] theorem State.setMem_last (s : State) (m : Memory) : (s.setMem m).last = s.last := rfl
@[simp] theorem State.setMem_ost (s : State) (m : Memory) : (s.setMem m).ost = s.ost := rfl

/-! ## `State.setIp` -/

@[simp] theorem State.setIp_mem (s : State) (n : Nat) : (s.setIp n).mem = s.mem := rfl
@[simp] theorem State.setIp_memCapacity (s : State) (n : Nat) : (s.setIp n).memCapacity = s.memCapacity := rfl
@[simp] theorem State.setIp_ip (s : State) (n : Nat) : (s.setIp n).ip = n := rfl
@[simp] theorem State.setIp_rb (s : State) (n : Nat) : (s.setIp n).rb = s.rb := rfl
@[simp] theorem State.setIp_st (s : State) (n : Nat) : (s.setIp n).st = s.st := rfl
@[simp] theorem State.setIp_flt (s : State) (n : Nat) : (s.setIp n).flt = s.flt := rfl
@[simp] theorem State.setIp_inq (s : State) (n : Nat) : (s.setIp n).inq = s.inq := rfl
@[simp] theorem State.setIp_before (s : State) (n : Nat) : (s.setIp n).before = s.before := rfl
@[simp] theorem State.setIp_after (s : State) (n : Nat) : (s.setIp n).after = s.after := rfl
@[simp] theorem State.setIp_wiring (s : State) (n : Nat) : (s.setIp n).wiring = s.wiring := rfl
@[simp] theorem State.setIp_outq (s : State) (n : Nat) : (s.setIp n).outq = s.outq := rfl
@[simp] theorem State.setIp_last (s : State) (n : Nat) : (s.setIp n).last = s.last := rfl
@[simp] theorem State.setIp_ost (s : State) (n : Nat) : (s.setIp n).ost = s.ost := rfl

/-! ## `State.setRb` -/

@[simp] theorem State.setRb_mem (s : State) (v : Word) : (s.setRb v).mem = s.mem := rfl
@[simp] theorem State.setRb_memCapacity (s : State) (v : Word) : (s.setRb v).memCapacity = s.memCapacity := rfl
@[simp] theorem State.setRb_ip (s : State) (v : Word) : (s.setRb v).ip = s.ip := rfl
@[simp] theorem State.setRb_rb (s : State) (v : Word) : (s.setRb v).rb = v := rfl
@[simp] theorem State.setRb_st (s : State) (v : Word) : (s.setRb v).st = s.st := rfl
@[simp] theorem State.setRb_flt (s : State) (v : Word) : (s.setRb v).flt = s.flt := rfl
@[simp] theorem State.setRb_inq (s : State) (v : Word) : (s.setRb v).inq = s.inq := rfl
@[simp] theorem State.setRb_before (s : State) (v : Word) : (s.setRb v).before = s.before := rfl
@[simp] theorem State.setRb_after (s : State) (v : Word) : (s.setRb v).after = s.after := rfl
@[simp] theorem State.setRb_wiring (s : State) (v : Word) : (s.setRb v).wiring = s.wiring := rfl
@[simp] theorem State.setRb_outq (s : State) (v : Word) : (s.setRb v).outq = s.outq := rfl
@[simp] theorem State.setRb_last (s : State) (v : Word) : (s.setRb v).last = s.last := rfl
@[simp] theorem State.setRb_ost (s : State) (v : Word) : (s.setRb v).ost = s.ost := rfl

/-! ## `State.setSt` -/

@[simp] theorem State.setSt_mem (s : State) (x : ExecState) : (s.setSt x).mem = s.mem := rfl
@[simp] theorem State.setSt_memCapacity (s : State) (x : ExecState) : (s.setSt x).memCapacity = s.memCapacity := rfl
@[simp] theorem State.setSt_ip (s : State) (x : ExecState) : (s.setSt x).ip = s.ip := rfl
@[simp] theorem State.setSt_rb (s : State) (x : ExecState) : (s.setSt x).rb = s.rb := rfl
@[simp] theorem State.setSt_st (s : State) (x : ExecState) : (s.setSt x).st = x := rfl
@[simp] theorem State.setSt_flt (s : State) (x : ExecState) : (s.setSt x).flt = s.flt := rfl
@[simp] theorem State.setSt_inq (s : State) (x : ExecState) : (s.setSt x).inq = s.inq := rfl
@[simp] theorem State.setSt_before (s : State) (x : ExecState) : (s.setSt x).before = s.before := rfl
@[simp] theorem State.setSt_after (s : State) (x : ExecState) : (s.setSt x).after = s.after := rfl
@[simp] theorem State.setSt_wiring (s : State) (x : ExecState) : (s.setSt x).wiring = s.wiring := rfl
@[simp] theorem State.setSt_outq (s : State) (x : ExecState) : (s.setSt x).outq = s.outq := rfl
@[simp] theorem State.setSt_last (s : State) (x : ExecState) : (s.setSt x).last = s.last := rfl
@[simp] theorem State.setSt_ost (s : State) (x : ExecState) : (s.setSt x).ost = s.ost := rfl

/-! ## `State.setFlt` -/

@[simp] theorem State.setFlt_mem (s : State) (r : Option FaultRecord) : (s.setFlt r).mem = s.mem := rfl
@[simp] theorem State.setFlt_memCapacity (s : State) (r : Option FaultRecord) : (s.setFlt r).memCapacity = s.memCapacity := rfl
@[simp] theorem State.setFlt_ip (s : State) (r : Option FaultRecord) : (s.setFlt r).ip = s.ip := rfl
@[simp] theorem State.setFlt_rb (s : State) (r : Option FaultRecord) : (s.setFlt r).rb = s.rb := rfl
@[simp] theorem State.setFlt_st (s : State) (r : Option FaultRecord) : (s.setFlt r).st = s.st := rfl
@[simp] theorem State.setFlt_flt (s : State) (r : Option FaultRecord) : (s.setFlt r).flt = r := rfl
@[simp] theorem State.setFlt_inq (s : State) (r : Option FaultRecord) : (s.setFlt r).inq = s.inq := rfl
@[simp] theorem State.setFlt_before (s : State) (r : Option FaultRecord) : (s.setFlt r).before = s.before := rfl
@[simp] theorem State.setFlt_after (s : State) (r : Option FaultRecord) : (s.setFlt r).after = s.after := rfl
@[simp] theorem State.setFlt_wiring (s : State) (r : Option FaultRecord) : (s.setFlt r).wiring = s.wiring := rfl
@[simp] theorem State.setFlt_outq (s : State) (r : Option FaultRecord) : (s.setFlt r).outq = s.outq := rfl
@[simp] theorem State.setFlt_last (s : State) (r : Option FaultRecord) : (s.setFlt r).last = s.last := rfl
@[simp] theorem State.setFlt_ost (s : State) (r : Option FaultRecord) : (s.setFlt r).ost = s.ost := rfl

/-! ## `State.setInq` -/

@[simp] theorem State.setInq_mem (s : State) (q : List Word) : (s.setInq q).mem = s.mem := rfl
@[simp] theorem State.setInq_memCapacity (s : State) (q : List Word) : (s.setInq q).memCapacity = s.memCapacity := rfl
@[simp] theorem State.setInq_ip (s : State) (q : List Word) : (s.setInq q).ip = s.ip := rfl
@[simp] theorem State.setInq_rb (s : State) (q : List Word) : (s.setInq q).rb = s.rb := rfl
@[simp] theorem State.setInq_st (s : State) (q : List Word) : (s.setInq q).st = s.st := rfl
@[simp] theorem State.setInq_flt (s : State) (q : List Word) : (s.setInq q).flt = s.flt := rfl
@[simp] theorem State.setInq_inq (s : State) (q : List Word) : (s.setInq q).inq = q := rfl
@[simp] theorem State.setInq_before (s : State) (q : List Word) : (s.setInq q).before = s.before := rfl
@[simp] theorem State.setInq_after (s : State) (q : List Word) : (s.setInq q).after = s.after := rfl
@[simp] theorem State.setInq_wiring (s : State) (q : List Word) : (s.setInq q).wiring = s.wiring := rfl
@[simp] theorem State.setInq_outq (s : State) (q : List Word) : (s.setInq q).outq = s.outq := rfl
@[simp] theorem State.setInq_last (s : State) (q : List Word) : (s.setInq q).last = s.last := rfl
@[simp] theorem State.setInq_ost (s : State) (q : List Word) : (s.setInq q).ost = s.ost := rfl

/-! ## `State.setOst` -/

@[simp] theorem State.setOst_mem (s : State) (x : RingStatus) : (s.setOst x).mem = s.mem := rfl
@[simp] theorem State.setOst_memCapacity (s : State) (x : RingStatus) : (s.setOst x).memCapacity = s.memCapacity := rfl
@[simp] theorem State.setOst_ip (s : State) (x : RingStatus) : (s.setOst x).ip = s.ip := rfl
@[simp] theorem State.setOst_rb (s : State) (x : RingStatus) : (s.setOst x).rb = s.rb := rfl
@[simp] theorem State.setOst_st (s : State) (x : RingStatus) : (s.setOst x).st = s.st := rfl
@[simp] theorem State.setOst_flt (s : State) (x : RingStatus) : (s.setOst x).flt = s.flt := rfl
@[simp] theorem State.setOst_inq (s : State) (x : RingStatus) : (s.setOst x).inq = s.inq := rfl
@[simp] theorem State.setOst_before (s : State) (x : RingStatus) : (s.setOst x).before = s.before := rfl
@[simp] theorem State.setOst_after (s : State) (x : RingStatus) : (s.setOst x).after = s.after := rfl
@[simp] theorem State.setOst_wiring (s : State) (x : RingStatus) : (s.setOst x).wiring = s.wiring := rfl
@[simp] theorem State.setOst_outq (s : State) (x : RingStatus) : (s.setOst x).outq = s.outq := rfl
@[simp] theorem State.setOst_last (s : State) (x : RingStatus) : (s.setOst x).last = s.last := rfl
@[simp] theorem State.setOst_ost (s : State) (x : RingStatus) : (s.setOst x).ost = x := rfl

/-! ## `State.takeFault` -/

@[simp] theorem State.takeFault_mem (s : State) (f : FaultInfo) : (s.takeFault f).mem = s.mem := rfl
@[simp] theorem State.takeFault_memCapacity (s : State) (f : FaultInfo) : (s.takeFault f).memCapacity = s.memCapacity := rfl
@[simp] theorem State.takeFault_ip (s : State) (f : FaultInfo) : (s.takeFault f).ip = s.ip := rfl
@[simp] theorem State.takeFault_rb (s : State) (f : FaultInfo) : (s.takeFault f).rb = s.rb := rfl
@[simp] theorem State.takeFault_st (s : State) (f : FaultInfo) : (s.takeFault f).st = .faulted := rfl
@[simp] theorem State.takeFault_flt (s : State) (f : FaultInfo) : (s.takeFault f).flt = some { info := f, faultIp := s.ip, word := (fetch s.toEngine).toOption } := rfl
@[simp] theorem State.takeFault_inq (s : State) (f : FaultInfo) : (s.takeFault f).inq = s.inq := rfl
@[simp] theorem State.takeFault_before (s : State) (f : FaultInfo) : (s.takeFault f).before = s.before := rfl
@[simp] theorem State.takeFault_after (s : State) (f : FaultInfo) : (s.takeFault f).after = s.after := rfl
@[simp] theorem State.takeFault_wiring (s : State) (f : FaultInfo) : (s.takeFault f).wiring = s.wiring := rfl
@[simp] theorem State.takeFault_outq (s : State) (f : FaultInfo) : (s.takeFault f).outq = s.outq := rfl
@[simp] theorem State.takeFault_last (s : State) (f : FaultInfo) : (s.takeFault f).last = s.last := rfl
@[simp] theorem State.takeFault_ost (s : State) (f : FaultInfo) : (s.takeFault f).ost = s.ost := rfl

/-! ## `State.pushOut` -/

@[simp] theorem State.pushFirst_toEngine (s : State) (v : Word) : (s.pushFirst v).toEngine = s.toEngine := by
  unfold State.pushFirst
  cases s.before <;> rfl

@[simp] theorem State.pushOut_toEngine (s : State) (v : Word) : (s.pushOut v).toEngine = s.toEngine := by
  unfold State.pushOut
  split
  · rfl
  · split
    · exact State.pushFirst_toEngine s v
    · rfl
  · rfl

@[simp] theorem State.pushOut_wiring (s : State) (v : Word) : (s.pushOut v).wiring = s.wiring := by
  unfold State.pushOut State.pushFirst
  cases hw : s.wiring <;> cases s.after <;> cases s.before <;> simp_all

@[simp] theorem State.pushOut_ost (s : State) (v : Word) : (s.pushOut v).ost = s.ost := by
  unfold State.pushOut State.pushFirst
  cases hw : s.wiring <;> cases s.after <;> cases s.before <;> simp_all

theorem State.pushOut_host (s : State) (v : Word) (h : s.wiring = .host) :
    s.pushOut v = { s with outq := s.outq ++ [v] } := by
  simp [State.pushOut, h]

theorem State.pushOut_unbuilt (s : State) (v : Word) {f : FaultInfo} (h : s.wiring = .unbuilt f) : s.pushOut v = s := by
  simp [State.pushOut, h]

end Sys2Proof.Machine
end

