-- ==== Sys2Proof/Laws/Ops.lean ====
section
/-!
SUPPORT. One lemma per shared operation: everything it can do. Callers cite these instead of unfolding the operation.
-/

namespace Sys2Proof.Machine

/-! ## Address checks, reads and writes -/

theorem addrCheck_ok_iff {e : Engine} {z : Int} {a : Nat} :
    addrCheck e z = .ok a ↔ 0 ≤ z ∧ z < e.cap ∧ a = z.toNat := by
  unfold addrCheck
  split
  · simp; omega
  · split
    · simp; omega
    · simp only [Except.ok.injEq]; omega

theorem addrCheck_error {e : Engine} {z : Int} {f : FaultInfo} (h : addrCheck e z = .error f) :
    (z < 0 ∧ f = .negativeAddress z) ∨ (0 ≤ z ∧ (e.cap : Int) ≤ z ∧ f = .memoryCapacityExceeded z.toNat) := by
  unfold addrCheck at h
  split at h
  · exact .inl ⟨by omega, by simpa using h.symm⟩
  · split at h
    · exact .inr ⟨by omega, by omega, by simpa using h.symm⟩
    · simp at h

theorem addrCheck_nat {e : Engine} {a : Nat} (h : a < e.cap) : addrCheck e (a : Int) = .ok a :=
  addrCheck_ok_iff.2 ⟨by omega, by omega, by simp⟩

theorem memRead_ok_iff {e : Engine} {z : Int} {v : Word} :
    memRead e z = .ok v ↔ 0 ≤ z ∧ z < e.cap ∧ v = e.mem.read z.toNat := by
  simp only [memRead, bind_ok_iff, addrCheck_ok_iff, Except.ok.injEq]
  constructor
  · rintro ⟨a, ⟨h1, h2, rfl⟩, rfl⟩
    exact ⟨h1, h2, rfl⟩
  · rintro ⟨h1, h2, rfl⟩
    exact ⟨_, ⟨h1, h2, rfl⟩, rfl⟩

theorem memRead_error_iff {e : Engine} {z : Int} {f : FaultInfo} :
    memRead e z = .error f ↔ addrCheck e z = .error f := by
  simp [memRead, bind_error_iff]

theorem memWrite_ok_iff {e : Engine} {z : Int} {v : Word} {m : Memory} :
    memWrite e z v = .ok m ↔ 0 ≤ z ∧ z < e.cap ∧ m = e.mem.write z.toNat v := by
  simp only [memWrite, bind_ok_iff, addrCheck_ok_iff, Except.ok.injEq]
  constructor
  · rintro ⟨a, ⟨h1, h2, rfl⟩, rfl⟩
    exact ⟨h1, h2, rfl⟩
  · rintro ⟨h1, h2, rfl⟩
    exact ⟨_, ⟨h1, h2, rfl⟩, rfl⟩

theorem memWrite_nat {e : Engine} {a : Nat} (v : Word) (h : a < e.cap) : memWrite e (a : Int) v = .ok (e.mem.write a v) := by
  rw [memWrite_ok_iff]
  exact ⟨by omega, by omega, by simp⟩

/-! ## The resolver and the next `ip` -/

theorem readSlot_ok {e : Engine} {k : Nat} {p : Word} (h : readSlot e k = .ok p) :
    InRange ((e.ip : Int) + k) ∧ memRead e ((e.ip : Int) + k) = .ok p := by
  obtain ⟨a, ha, hr⟩ := bind_ok_iff.1 h
  obtain ⟨rfl, hr2⟩ := chk64_ok_iff.1 ha
  exact ⟨hr2, hr⟩

theorem checkDestination_ok_iff {k : Nat} {m : Mode} : checkDestination k m = .ok () ↔ m ≠ .immediate := by
  cases m <;> simp [checkDestination]

theorem checkDestination_of_ne {k : Nat} {m : Mode} (h : m ≠ .immediate) : checkDestination k m = .ok () :=
  checkDestination_ok_iff.2 h

theorem resolveDestination_immediate (e : Engine) (k : Nat) :
    resolveDestination e k .immediate = .error (.invalidDestinationMode k) := rfl

/-- A resolved destination is below CAP and its mode is not Immediate. -/
theorem resolveDestination_ok {e : Engine} {k : Nat} {m : Mode} {a : Nat} (h : resolveDestination e k m = .ok a) :
    m ≠ .immediate ∧ a < e.cap := by
  obtain ⟨u, hu, h⟩ := bind_ok_iff.1 h
  obtain ⟨p, -, h⟩ := bind_ok_iff.1 h
  cases m with
  | immediate => simp at h
  | position =>
    obtain ⟨h1, h2, rfl⟩ := addrCheck_ok_iff.1 h
    exact ⟨by simp, by omega⟩
  | relative =>
    obtain ⟨z, -, h⟩ := bind_ok_iff.1 h
    obtain ⟨h1, h2, rfl⟩ := addrCheck_ok_iff.1 h
    exact ⟨by simp, by omega⟩

/-- The commit's write never raises: its address has passed the resolver (20_memory.md R32). -/
theorem memWrite_of_resolved {e : Engine} {k : Nat} {m : Mode} {a : Nat} (v : Word) (h : resolveDestination e k m = .ok a) :
    memWrite e (a : Int) v = .ok (e.mem.write a v) := memWrite_nat v (resolveDestination_ok h).2

theorem nextIp_ok_iff {e : Engine} {n k : Nat} : nextIp e n = .ok k ↔ k = e.ip + n ∧ (e.ip : Int) + n ≤ intMax := by
  simp only [nextIp, bind_ok_iff, chk64_ok_iff, Except.ok.injEq]
  constructor
  · rintro ⟨z, ⟨rfl, h1, h2⟩, rfl⟩
    exact ⟨by omega, h2⟩
  · rintro ⟨rfl, h⟩
    exact ⟨_, ⟨rfl, by simp only [intMin]; omega, h⟩, by omega⟩

theorem nextIp_ok {e : Engine} {n : Nat} (h : (e.ip : Int) + n ≤ intMax) : nextIp e n = .ok (e.ip + n) :=
  nextIp_ok_iff.2 ⟨rfl, h⟩

theorem jumpTarget_ok_iff {b : Word} {n : Nat} : jumpTarget b = .ok n ↔ 0 ≤ b.toInt ∧ n = b.toInt.toNat := by
  unfold jumpTarget
  split
  · simp; omega
  · simp only [Except.ok.injEq]; omega

/-! ## The results -/

theorem sumResult_ok_iff {a b r : Word} :
    sumResult a b = .ok r ↔ InRange (a.toInt + b.toInt) ∧ r = Word.ofZ (a.toInt + b.toInt) := by
  simp only [sumResult, bind_ok_iff, chk64_ok_iff, Except.ok.injEq]
  constructor
  · rintro ⟨z, ⟨rfl, h⟩, rfl⟩
    exact ⟨h, rfl⟩
  · rintro ⟨h, rfl⟩
    exact ⟨_, ⟨rfl, h⟩, rfl⟩

theorem productResult_ok_iff {a b r : Word} :
    productResult a b = .ok r ↔ InRange (a.toInt * b.toInt) ∧ r = Word.ofZ (a.toInt * b.toInt) := by
  simp only [productResult, bind_ok_iff, chk64_ok_iff, Except.ok.injEq]
  constructor
  · rintro ⟨z, ⟨rfl, h⟩, rfl⟩
    exact ⟨h, rfl⟩
  · rintro ⟨h, rfl⟩
    exact ⟨_, ⟨rfl, h⟩, rfl⟩

/-! ## The effect of each instruction family -/

/-- What Add, Mul, LessThan and Equals do when no fault is met. -/
theorem alu_ok {f : Word → Word → Except FaultInfo Word} {m1 m2 m3 : Mode} {s t : State} (h : alu f m1 m2 m3 s = .ok t) :
    ∃ a b dest r, resolveValue s.toEngine 1 m1 = .ok a ∧ resolveValue s.toEngine 2 m2 = .ok b ∧
      resolveDestination s.toEngine 3 m3 = .ok dest ∧ f a b = .ok r ∧ (s.ip : Int) + 4 ≤ intMax ∧
      t = ((s.setMem (s.mem.write dest r)).setIp (s.ip + 4)).setSt .ready := by
  obtain ⟨u, -, h⟩ := bind_ok_iff.1 h
  obtain ⟨a, ha, h⟩ := bind_ok_iff.1 h
  obtain ⟨b, hb, h⟩ := bind_ok_iff.1 h
  obtain ⟨dest, hd, h⟩ := bind_ok_iff.1 h
  obtain ⟨r, hr, h⟩ := bind_ok_iff.1 h
  obtain ⟨n, hn, h⟩ := bind_ok_iff.1 h
  obtain ⟨m, hm, h⟩ := bind_ok_iff.1 h
  rw [memWrite_of_resolved r hd] at hm
  obtain ⟨rfl, hip⟩ := nextIp_ok_iff.1 hn
  cases hm
  cases h
  exact ⟨a, b, dest, r, ha, hb, hd, hr, hip, rfl⟩

theorem alu_eq {f : Word → Word → Except FaultInfo Word} {m1 m2 m3 : Mode} {s : State} {a b r : Word} {dest : Nat}
    (ha : resolveValue s.toEngine 1 m1 = .ok a) (hb : resolveValue s.toEngine 2 m2 = .ok b)
    (hd : resolveDestination s.toEngine 3 m3 = .ok dest) (hr : f a b = .ok r) (hn : (s.ip : Int) + 4 ≤ intMax) :
    alu f m1 m2 m3 s = .ok (((s.setMem (s.mem.write dest r)).setIp (s.ip + 4)).setSt .ready) := by
  simp only [alu, checkDestination_of_ne (resolveDestination_ok hd).1, ha, hb, hd, hr, nextIp_ok hn,
    memWrite_of_resolved r hd, ok_bind]

/-- What Input does when no fault is met: it suspends, or it pops and stores the front value. -/
theorem input_ok {m1 : Mode} {s t : State} (h : input m1 s = .ok t) :
    ∃ dest, resolveDestination s.toEngine 1 m1 = .ok dest ∧ (s.ip : Int) + 2 ≤ intMax ∧
      ((s.inq = [] ∧ t = s.setSt .blockedOnInput) ∨
       ∃ v rest, s.inq = v :: rest ∧
        t = (((s.setInq rest).setMem (s.mem.write dest v)).setIp (s.ip + 2)).setSt .ready) := by
  obtain ⟨u, -, h⟩ := bind_ok_iff.1 h
  obtain ⟨dest, hd, h⟩ := bind_ok_iff.1 h
  obtain ⟨n, hn, h⟩ := bind_ok_iff.1 h
  obtain ⟨rfl, hip⟩ := nextIp_ok_iff.1 hn
  refine ⟨dest, hd, hip, ?_⟩
  cases hq : s.inq with
  | nil =>
    rw [hq] at h
    cases h
    exact .inl ⟨rfl, rfl⟩
  | cons v rest =>
    rw [hq] at h
    obtain ⟨m, hm, h⟩ := bind_ok_iff.1 h
    rw [memWrite_of_resolved v hd] at hm
    cases hm
    cases h
    exact .inr ⟨v, rest, rfl, rfl⟩

theorem input_eq_blocked {m1 : Mode} {s : State} {dest : Nat} (hd : resolveDestination s.toEngine 1 m1 = .ok dest)
    (hn : (s.ip : Int) + 2 ≤ intMax) (hq : s.inq = []) : input m1 s = .ok (s.setSt .blockedOnInput) := by
  simp only [input, checkDestination_of_ne (resolveDestination_ok hd).1, hd, nextIp_ok hn, hq, ok_bind]

theorem input_eq_popped {m1 : Mode} {s : State} {dest : Nat} {v : Word} {rest : List Word}
    (hd : resolveDestination s.toEngine 1 m1 = .ok dest) (hn : (s.ip : Int) + 2 ≤ intMax) (hq : s.inq = v :: rest) :
    input m1 s = .ok ((((s.setInq rest).setMem (s.mem.write dest v)).setIp (s.ip + 2)).setSt .ready) := by
  simp only [input, checkDestination_of_ne (resolveDestination_ok hd).1, hd, nextIp_ok hn, hq,
    memWrite_of_resolved v hd, ok_bind]

theorem output_ok {m1 : Mode} {s t : State} (h : output m1 s = .ok t) :
    ∃ a, resolveValue s.toEngine 1 m1 = .ok a ∧ (s.ip : Int) + 2 ≤ intMax ∧
      t = ((s.pushOut a).setIp (s.ip + 2)).setSt .ready := by
  obtain ⟨a, ha, h⟩ := bind_ok_iff.1 h
  obtain ⟨n, hn, h⟩ := bind_ok_iff.1 h
  obtain ⟨rfl, hip⟩ := nextIp_ok_iff.1 hn
  cases h
  exact ⟨a, ha, hip, rfl⟩

theorem output_eq {m1 : Mode} {s : State} {a : Word} (ha : resolveValue s.toEngine 1 m1 = .ok a)
    (hn : (s.ip : Int) + 2 ≤ intMax) : output m1 s = .ok (((s.pushOut a).setIp (s.ip + 2)).setSt .ready) := by
  simp only [output, ha, nextIp_ok hn, ok_bind]

theorem jump_ok {taken : Word → Bool} {m1 m2 : Mode} {s t : State} (h : jump taken m1 m2 s = .ok t) :
    ∃ a b n, resolveValue s.toEngine 1 m1 = .ok a ∧ resolveValue s.toEngine 2 m2 = .ok b ∧
      ((taken a = true ∧ 0 ≤ b.toInt ∧ n = b.toInt.toNat) ∨ (taken a = false ∧ (s.ip : Int) + 3 ≤ intMax ∧ n = s.ip + 3)) ∧
      t = (s.setIp n).setSt .ready := by
  obtain ⟨a, ha, h⟩ := bind_ok_iff.1 h
  obtain ⟨b, hb, h⟩ := bind_ok_iff.1 h
  obtain ⟨n, hn, h⟩ := bind_ok_iff.1 h
  refine ⟨a, b, n, ha, hb, ?_, by cases h; rfl⟩
  unfold jumpNext at hn
  split at hn
  · obtain ⟨h1, h2⟩ := jumpTarget_ok_iff.1 hn
    exact .inl ⟨by assumption, h1, h2⟩
  · obtain ⟨h1, h2⟩ := nextIp_ok_iff.1 hn
    exact .inr ⟨by simpa using ‹¬ taken a = true›, h2, h1⟩

theorem adjustRelativeBase_ok {m1 : Mode} {s t : State} (h : adjustRelativeBase m1 s = .ok t) :
    ∃ a, resolveValue s.toEngine 1 m1 = .ok a ∧ InRange (s.rb.toInt + a.toInt) ∧ (s.ip : Int) + 2 ≤ intMax ∧
      t = ((s.setRb (Word.ofZ (s.rb.toInt + a.toInt))).setIp (s.ip + 2)).setSt .ready := by
  obtain ⟨a, ha, h⟩ := bind_ok_iff.1 h
  obtain ⟨z, hz, h⟩ := bind_ok_iff.1 h
  obtain ⟨n, hn, h⟩ := bind_ok_iff.1 h
  obtain ⟨rfl, hr⟩ := chk64_ok_iff.1 hz
  obtain ⟨rfl, hip⟩ := nextIp_ok_iff.1 hn
  cases h
  exact ⟨a, ha, hr, hip, rfl⟩

theorem halt_ok {s t : State} (h : halt s = .ok t) :
    (s.ip : Int) + 1 ≤ intMax ∧ t = (s.setIp (s.ip + 1)).setSt .halted := by
  obtain ⟨n, hn, h⟩ := bind_ok_iff.1 h
  obtain ⟨rfl, hip⟩ := nextIp_ok_iff.1 hn
  cases h
  exact ⟨hip, rfl⟩

/-! ## Commit and dispatch -/

@[simp] theorem State.commit_ok (s t : State) : s.commit (.ok t) = .next t := rfl

@[simp] theorem State.commit_error (s : State) (f : FaultInfo) : s.commit (.error f) = .next (s.takeFault f) := rfl

theorem State.commit_next {s t : State} {r : Except FaultInfo State} (h : s.commit r = .next t) :
    r = .ok t ∨ ∃ f, r = .error f ∧ t = s.takeFault f := by
  cases r with
  | ok u => exact .inl (by simpa using h)
  | error f => exact .inr ⟨f, rfl, by simpa using h.symm⟩

/-- What an instruction computes before the commit. -/
def effect (i : Instr) (s : State) : Except FaultInfo State :=
  match i with
  | .add m1 m2 m3 => alu sumResult m1 m2 m3 s
  | .mul m1 m2 m3 => alu productResult m1 m2 m3 s
  | .input m1 => input m1 s
  | .output m1 => output m1 s
  | .jumpIfTrue m1 m2 => jump (fun a => decide (a.toInt ≠ 0)) m1 m2 s
  | .jumpIfFalse m1 m2 => jump (fun a => decide (a.toInt = 0)) m1 m2 s
  | .lessThan m1 m2 m3 => alu lessThanResult m1 m2 m3 s
  | .equals m1 m2 m3 => alu equalsResult m1 m2 m3 s
  | .adjustRelativeBase m1 => adjustRelativeBase m1 s
  | .halt => halt s

/-- Every instruction commits what it computes or takes the fault it meets: `exec` always answers a next state. -/
theorem exec_eq_commit (i : Instr) (s : State) : exec i s = s.commit (effect i s) := by
  cases i <;> rfl

theorem exec_of_effect_ok {i : Instr} {s t : State} (h : effect i s = .ok t) : exec i s = .next t := by
  rw [exec_eq_commit, h, State.commit_ok]

theorem exec_of_effect_error {i : Instr} {s : State} {f : FaultInfo} (h : effect i s = .error f) :
    exec i s = .next (s.takeFault f) := by
  rw [exec_eq_commit, h, State.commit_error]

/-- The two ways an instruction ends. -/
theorem exec_next {i : Instr} {s t : State} (h : exec i s = .next t) :
    effect i s = .ok t ∨ ∃ f, effect i s = .error f ∧ t = s.takeFault f :=
  State.commit_next (exec_eq_commit i s ▸ h)

end Sys2Proof.Machine
end

