-- ==== Sys2Proof/Laws/PerInstr.lean ====
section
/-!
SUPPORT. The words the encoder writes, one lemma per instruction: the opcode in the two low digits, the mode digit of each
parameter the instruction has at its place, and 0 in every other digit (30_encoding.md R51, R56).
-/

namespace Sys2Proof.Laws.EncodePattern

open Sys2Proof

/-- The digits of the word of an instruction. -/
def Statement (i : Instr) : Prop :=
  0 ≤ (encode i).toInt ∧ (encode i).toInt.toNat % 100 = i.opcode ∧
    ∀ k, digit (encode i).toInt.toNat (k + 2) = (i.modes.map Mode.toDigit).getD k 0

theorem digit_of_lt {n j : Nat} (hn : n < 100000) (hj : 5 ≤ j) : digit n j = 0 := by
  have h : 10 ^ 5 ≤ 10 ^ j := Nat.pow_le_pow_right (by decide) hj
  rw [digit, Nat.div_eq_of_lt (by omega)]

/-- The three mode digits decide the pattern: a word below 10^5 has no others. -/
theorem of_low (i : Instr) (h0 : 0 ≤ (encode i).toInt) (hn : (encode i).toInt.toNat < 100000)
    (hc : (encode i).toInt.toNat % 100 = i.opcode)
    (h : ∀ k : Fin 3, digit (encode i).toInt.toNat (k.val + 2) = (i.modes.map Mode.toDigit).getD k.val 0) : Statement i := by
  refine ⟨h0, hc, fun k => ?_⟩
  by_cases hk : k < 3
  · exact h ⟨k, hk⟩
  · rw [digit_of_lt hn (by omega)]
    have hl := i.modes_length_le
    simp [List.getElem?_eq_none (show i.modes.length ≤ k by omega)]

theorem add (m1 m2 m3 : Mode) : Statement (.add m1 m2 m3) := by
  cases m1 <;> cases m2 <;> cases m3 <;> exact of_low _ (by decide) (by decide) (by decide) (by decide)

theorem mul (m1 m2 m3 : Mode) : Statement (.mul m1 m2 m3) := by
  cases m1 <;> cases m2 <;> cases m3 <;> exact of_low _ (by decide) (by decide) (by decide) (by decide)

theorem input (m1 : Mode) : Statement (.input m1) := by
  cases m1 <;> exact of_low _ (by decide) (by decide) (by decide) (by decide)

theorem output (m1 : Mode) : Statement (.output m1) := by
  cases m1 <;> exact of_low _ (by decide) (by decide) (by decide) (by decide)

theorem jumpIfTrue (m1 m2 : Mode) : Statement (.jumpIfTrue m1 m2) := by
  cases m1 <;> cases m2 <;> exact of_low _ (by decide) (by decide) (by decide) (by decide)

theorem jumpIfFalse (m1 m2 : Mode) : Statement (.jumpIfFalse m1 m2) := by
  cases m1 <;> cases m2 <;> exact of_low _ (by decide) (by decide) (by decide) (by decide)

theorem lessThan (m1 m2 m3 : Mode) : Statement (.lessThan m1 m2 m3) := by
  cases m1 <;> cases m2 <;> cases m3 <;> exact of_low _ (by decide) (by decide) (by decide) (by decide)

theorem equals (m1 m2 m3 : Mode) : Statement (.equals m1 m2 m3) := by
  cases m1 <;> cases m2 <;> cases m3 <;> exact of_low _ (by decide) (by decide) (by decide) (by decide)

theorem adjustRelativeBase (m1 : Mode) : Statement (.adjustRelativeBase m1) := by
  cases m1 <;> exact of_low _ (by decide) (by decide) (by decide) (by decide)

theorem halt : Statement .halt := of_low _ (by decide) (by decide) (by decide) (by decide)

end Sys2Proof.Laws.EncodePattern
end

