-- ==== Sys2Proof/Laws/Step.lean ====
section
/-!
SUPPORT. What a step can do: the ways an instruction faults and completes, the step of an engine, the ring's bookkeeping,
and runs of the machine.
-/

namespace Sys2Proof.Machine

/-! ## The faults an instruction can meet -/

/-- The faults that operands, results and sequencing raise: an overflow, a negative address, or an address in range that is at or
above CAP (60_exceptions.md R155 to R157). -/
def OperandFault (e : Engine) (f : FaultInfo) : Prop :=
  (∃ z, f = .arithmeticOverflow z) ∨ (∃ z, f = .negativeAddress z) ∨
    ∃ a, f = .memoryCapacityExceeded a ∧ ∃ z : Int, InRange z ∧ (e.cap : Int) ≤ z

theorem operandFault_of_addrCheck {e : Engine} {z : Int} {f : FaultInfo} (hr : InRange z)
    (h : addrCheck e z = .error f) : OperandFault e f := by
  rcases addrCheck_error h with ⟨-, rfl⟩ | ⟨-, hc, rfl⟩
  · exact .inr (.inl ⟨z, rfl⟩)
  · exact .inr (.inr ⟨_, rfl, z, hr, hc⟩)

theorem operandFault_of_chk64 {e : Engine} {z : Int} {f : FaultInfo} (h : chk64 z = .error f) : OperandFault e f :=
  .inl ⟨z, (chk64_error_iff.1 h).1⟩

theorem readSlot_error {e : Engine} {k : Nat} {f : FaultInfo} (h : readSlot e k = .error f) : OperandFault e f := by
  rcases bind_error_iff.1 h with h | ⟨z, hz, h⟩
  · exact operandFault_of_chk64 h
  · obtain ⟨rfl, hr⟩ := chk64_ok_iff.1 hz
    exact operandFault_of_addrCheck hr (memRead_error_iff.1 h)

theorem resolveValue_error {e : Engine} {k : Nat} {m : Mode} {f : FaultInfo} (h : resolveValue e k m = .error f) :
    OperandFault e f := by
  rcases bind_error_iff.1 h with h | ⟨p, -, h⟩
  · exact readSlot_error h
  · cases m with
    | immediate => cases h
    | position => exact operandFault_of_addrCheck (Word.inRange p) (memRead_error_iff.1 h)
    | relative =>
      rcases bind_error_iff.1 h with h | ⟨z, hz, h⟩
      · exact operandFault_of_chk64 h
      · obtain ⟨rfl, hr⟩ := chk64_ok_iff.1 hz
        exact operandFault_of_addrCheck hr (memRead_error_iff.1 h)

theorem resolveDestination_error {e : Engine} {k : Nat} {m : Mode} {f : FaultInfo} (hm : m ≠ .immediate)
    (h : resolveDestination e k m = .error f) : OperandFault e f := by
  simp only [resolveDestination, checkDestination_of_ne hm, ok_bind] at h
  rcases bind_error_iff.1 h with h | ⟨p, -, h⟩
  · exact readSlot_error h
  · cases m with
    | immediate => exact absurd rfl hm
    | position => exact operandFault_of_addrCheck (Word.inRange p) h
    | relative =>
      rcases bind_error_iff.1 h with h | ⟨z, hz, h⟩
      · exact operandFault_of_chk64 h
      · obtain ⟨rfl, hr⟩ := chk64_ok_iff.1 hz
        exact operandFault_of_addrCheck hr h

theorem nextIp_error {e : Engine} {n : Nat} {f : FaultInfo} (h : nextIp e n = .error f) : OperandFault e f := by
  rcases bind_error_iff.1 h with h | ⟨z, -, h⟩
  · exact operandFault_of_chk64 h
  · cases h

theorem jump_error {taken : Word → Bool} {m1 m2 : Mode} {s : State} {f : FaultInfo} (h : jump taken m1 m2 s = .error f) :
    OperandFault s.toEngine f := by
  rcases bind_error_iff.1 h with h | ⟨a, -, h⟩
  · exact resolveValue_error h
  rcases bind_error_iff.1 h with h | ⟨b, -, h⟩
  · exact resolveValue_error h
  rcases bind_error_iff.1 h with h | ⟨n, -, h⟩
  · unfold jumpNext at h
    split at h
    · unfold jumpTarget at h
      split at h
      · cases h
        exact .inr (.inl ⟨_, rfl⟩)
      · cases h
    · exact nextIp_error h
  · cases h

theorem alu_error {g : Word → Word → Except FaultInfo Word} {m1 m2 m3 : Mode} {s : State} {f : FaultInfo}
    (hm : m3 ≠ .immediate) (hg : ∀ a b, g a b = .error f → OperandFault s.toEngine f) (h : alu g m1 m2 m3 s = .error f) :
    OperandFault s.toEngine f := by
  simp only [alu, checkDestination_of_ne hm, ok_bind] at h
  rcases bind_error_iff.1 h with h | ⟨a, -, h⟩
  · exact resolveValue_error h
  rcases bind_error_iff.1 h with h | ⟨b, -, h⟩
  · exact resolveValue_error h
  rcases bind_error_iff.1 h with h | ⟨d, hd, h⟩
  · exact resolveDestination_error hm h
  rcases bind_error_iff.1 h with h | ⟨r, -, h⟩
  · exact hg _ _ h
  rcases bind_error_iff.1 h with h | ⟨n, -, h⟩
  · exact nextIp_error h
  rw [memWrite_of_resolved r hd] at h
  cases h

theorem sumResult_error {e : Engine} {a b : Word} {f : FaultInfo} (h : sumResult a b = .error f) : OperandFault e f := by
  rcases bind_error_iff.1 h with h | ⟨z, -, h⟩
  · exact operandFault_of_chk64 h
  · cases h

theorem productResult_error {e : Engine} {a b : Word} {f : FaultInfo} (h : productResult a b = .error f) :
    OperandFault e f := by
  rcases bind_error_iff.1 h with h | ⟨z, -, h⟩
  · exact operandFault_of_chk64 h
  · cases h

/-- A legal instruction meets only operand faults. -/
theorem effect_error_of_wellFormed {i : Instr} {s : State} {f : FaultInfo} (hi : i.wellFormed = true)
    (h : effect i s = .error f) : OperandFault s.toEngine f := by
  cases i with
  | add m1 m2 m3 => exact alu_error (by simpa [Instr.wellFormed, Instr.destination] using hi) (fun _ _ => sumResult_error) h
  | mul m1 m2 m3 => exact alu_error (by simpa [Instr.wellFormed, Instr.destination] using hi) (fun _ _ => productResult_error) h
  | lessThan m1 m2 m3 => exact alu_error (by simpa [Instr.wellFormed, Instr.destination] using hi) (fun _ _ h => by cases h) h
  | equals m1 m2 m3 => exact alu_error (by simpa [Instr.wellFormed, Instr.destination] using hi) (fun _ _ h => by cases h) h
  | jumpIfTrue m1 m2 => exact jump_error h
  | jumpIfFalse m1 m2 => exact jump_error h
  | halt =>
    rcases bind_error_iff.1 h with h | ⟨n, -, h⟩
    · exact nextIp_error h
    · cases h
  | adjustRelativeBase m1 =>
    rcases bind_error_iff.1 h with h | ⟨a, -, h⟩
    · exact resolveValue_error h
    rcases bind_error_iff.1 h with h | ⟨z, -, h⟩
    · exact operandFault_of_chk64 h
    rcases bind_error_iff.1 h with h | ⟨n, -, h⟩
    · exact nextIp_error h
    · cases h
  | output m1 =>
    rcases bind_error_iff.1 h with h | ⟨a, -, h⟩
    · exact resolveValue_error h
    rcases bind_error_iff.1 h with h | ⟨n, -, h⟩
    · exact nextIp_error h
    · cases h
  | input m1 =>
    have hm : m1 ≠ .immediate := by simpa [Instr.wellFormed, Instr.destination] using hi
    simp only [effect, input, checkDestination_of_ne hm, ok_bind] at h
    rcases bind_error_iff.1 h with h | ⟨d, hd, h⟩
    · exact resolveDestination_error hm h
    rcases bind_error_iff.1 h with h | ⟨n, -, h⟩
    · exact nextIp_error h
    split at h
    · cases h
    · rename_i v rest _
      rw [memWrite_of_resolved v hd] at h
      cases h

/-- An instruction with an Immediate destination faults at dispatch, whatever its operands (30_encoding.md R67 step 3). -/
theorem effect_of_immediate {i : Instr} {k : Nat} (s : State) (h : i.destination = some (k, .immediate)) :
    effect i s = .error (.invalidDestinationMode k) := by
  cases i <;> simp only [Instr.destination, Option.some.injEq, Prod.mk.injEq, reduceCtorEq] at h <;>
    obtain ⟨rfl, rfl⟩ := h <;> rfl

theorem Instr.destination_of_not_wellFormed {i : Instr} (h : ¬ i.wellFormed = true) :
    ∃ k, i.destination = some (k, .immediate) := by
  unfold Instr.wellFormed at h
  split at h
  · rename_i k m hd
    exact ⟨k, by rw [hd]; simp_all⟩
  · simp at h

/-- Everything an instruction's faults can be. -/
theorem effect_error {i : Instr} {s : State} {f : FaultInfo} (h : effect i s = .error f) :
    (∃ k, i.destination = some (k, .immediate) ∧ f = .invalidDestinationMode k) ∨
      (i.wellFormed = true ∧ OperandFault s.toEngine f) := by
  by_cases hi : i.wellFormed = true
  · exact .inr ⟨hi, effect_error_of_wellFormed hi h⟩
  · obtain ⟨k, hk⟩ := Instr.destination_of_not_wellFormed hi
    rw [effect_of_immediate s hk] at h
    cases h
    exact .inl ⟨k, hk, rfl⟩

/-! ## The ways an instruction completes -/

/-- What `st` is after an instruction that meets no fault; `flt` is never touched. -/
theorem effect_ok_st {i : Instr} {s t : State} (h : effect i s = .ok t) :
    t.flt = s.flt ∧
      ((t.st = .ready ∧ i ≠ .halt) ∨ (t.st = .halted ∧ i = .halt) ∨
        ((∃ m1, i = .input m1) ∧ s.inq = [] ∧ t = s.setSt .blockedOnInput)) := by
  cases i with
  | add m1 m2 m3 => obtain ⟨a, b, d, r, -, -, -, -, -, rfl⟩ := alu_ok h; simp
  | mul m1 m2 m3 => obtain ⟨a, b, d, r, -, -, -, -, -, rfl⟩ := alu_ok h; simp
  | lessThan m1 m2 m3 => obtain ⟨a, b, d, r, -, -, -, -, -, rfl⟩ := alu_ok h; simp
  | equals m1 m2 m3 => obtain ⟨a, b, d, r, -, -, -, -, -, rfl⟩ := alu_ok h; simp
  | jumpIfTrue m1 m2 => obtain ⟨a, b, n, -, -, -, rfl⟩ := jump_ok h; simp
  | jumpIfFalse m1 m2 => obtain ⟨a, b, n, -, -, -, rfl⟩ := jump_ok h; simp
  | halt => obtain ⟨-, rfl⟩ := halt_ok h; simp
  | adjustRelativeBase m1 => obtain ⟨a, -, -, -, rfl⟩ := adjustRelativeBase_ok h; simp
  | output m1 => obtain ⟨a, -, -, rfl⟩ := output_ok h; simp
  | input m1 =>
    obtain ⟨d, -, -, ⟨hq, rfl⟩ | ⟨v, rest, hq, rfl⟩⟩ := input_ok h
    · simp [hq]
    · simp

/-! ## The step of an engine -/

theorem fetchDecode_of {e : Engine} {w : Word} {i : Instr} (h : memRead e e.ip = .ok w) (hd : decode w = .ok i) :
    fetchDecode e = .ok i := by
  simp only [fetchDecode, fetch, h, ok_bind, hd]

/-- A step of an engine always answers a next state. -/
theorem fetchExec_next (s : State) : ∃ t, fetchExec s = .next t := by
  unfold fetchExec
  split
  · rename_i i _
    rw [exec_eq_commit]
    cases effect i s with
    | ok t => exact ⟨t, rfl⟩
    | error f => exact ⟨s.takeFault f, rfl⟩
  · exact ⟨_, rfl⟩

/-- No instruction raises the loader's fault (60_exceptions.md R151). -/
theorem effect_error_ne {i : Instr} {s : State} {f : FaultInfo} (h : effect i s = .error f) : f ≠ .programParseError := by
  rcases effect_error h with ⟨k, -, rfl⟩ | ⟨-, ⟨z, rfl⟩ | ⟨z, rfl⟩ | ⟨a, rfl, -⟩⟩ <;> simp

/-- What fetch and decode can raise (60_exceptions.md R152, R153, R156). -/
theorem fetchDecode_error {e : Engine} {f : FaultInfo} (h : fetchDecode e = .error f) :
    (e.cap ≤ e.ip ∧ f = .memoryCapacityExceeded e.ip) ∨
      ∃ w d, memRead e e.ip = .ok w ∧ decode w = .error d ∧ f = FaultInfo.ofDecode d := by
  rcases bind_error_iff.1 h with h | ⟨w, hw, h⟩
  · rcases addrCheck_error (memRead_error_iff.1 h) with ⟨h, -⟩ | ⟨-, hc, rfl⟩
    · omega
    · exact .inl ⟨by omega, by simp⟩
  · split at h
    · cases h
    · rename_i d hd
      cases h
      exact .inr ⟨w, d, hw, hd, rfl⟩

theorem fetchDecode_error_ne {e : Engine} {f : FaultInfo} (h : fetchDecode e = .error f) : f ≠ .programParseError := by
  rcases fetchDecode_error h with ⟨-, rfl⟩ | ⟨w, d, -, -, rfl⟩
  · simp
  · cases d <;> simp [FaultInfo.ofDecode]

/-- The two ways a step of an engine ends: an instruction completes, or a fault is taken. -/
theorem fetchExec_cases {s t : State} (h : fetchExec s = .next t) :
    (∃ i, fetchDecode s.toEngine = .ok i ∧ effect i s = .ok t) ∨ ∃ f, f ≠ .programParseError ∧ t = s.takeFault f := by
  unfold fetchExec at h
  split at h
  · rename_i i hi
    rcases exec_next h with h | ⟨f, hf, rfl⟩
    · exact .inl ⟨i, hi, h⟩
    · exact .inr ⟨f, effect_error_ne hf, rfl⟩
  · rename_i f hf
    cases h
    exact .inr ⟨f, fetchDecode_error_ne hf, rfl⟩

/-- One iteration of `run`: nothing, or one step of the engine. -/
theorem engineTurn_cases (s : State) :
    (s.engineTurn = .next s ∧ (s.st = .halted ∨ s.st = .faulted ∨ (s.st = .blockedOnInput ∧ s.inq = []))) ∨
      (s.engineTurn = fetchExec s ∧ (s.st = .ready ∨ (s.st = .blockedOnInput ∧ s.inq ≠ []))) := by
  cases h : s.st with
  | ready => exact .inr ⟨by simp [State.engineTurn, h], .inl rfl⟩
  | halted => exact .inl ⟨by simp [State.engineTurn, h], .inl rfl⟩
  | faulted => exact .inl ⟨by simp [State.engineTurn, h], .inr (.inl rfl)⟩
  | blockedOnInput =>
    by_cases hq : s.inq = []
    · exact .inl ⟨by simp [State.engineTurn, h, hq], .inr (.inr ⟨rfl, hq⟩)⟩
    · exact .inr ⟨by simp [State.engineTurn, h, hq], .inr ⟨rfl, hq⟩⟩

theorem engineTurn_next (s : State) : ∃ t, s.engineTurn = .next t := by
  rcases engineTurn_cases s with ⟨h, -⟩ | ⟨h, -⟩
  · exact ⟨s, h⟩
  · rw [h]
    exact fetchExec_next s

/-! ## The ring -/

/-- Where engines exist they are those before the current one, the current one, and those after it. -/
theorem State.stations_of_built {s : State} (h : ∀ f, s.wiring ≠ .unbuilt f) :
    s.stations = s.before ++ s.toStation :: s.after := by
  unfold State.stations
  split
  · rfl
  · rfl
  · exact absurd ‹_› (h _)

theorem State.stations_of_ring {s : State} (h : s.wiring = .ring) : s.stations = s.before ++ s.toStation :: s.after :=
  State.stations_of_built (by simp [h])

theorem State.stations_of_host {s : State} (h : s.wiring = .host) : s.stations = s.before ++ s.toStation :: s.after :=
  State.stations_of_built (by simp [h])

@[simp] theorem State.stations_unbuilt (f : FaultInfo) : (State.unbuilt f).stations = [] := rfl

/-- What `Orchestrate` leaves (45_orchestrator.md R132). -/
theorem State.orchestrate_cases (program : List Word) (capacity : Option Nat) (phase0 : Word) (phases : List Word) (f0 : Word) :
    (∃ e, Engine.new program capacity = .ok e ∧
        State.orchestrate program capacity phase0 phases f0 = State.seed e phase0 phases f0) ∨
      ∃ f, Engine.new program capacity = .error f ∧
        State.orchestrate program capacity phase0 phases f0 = State.unbuilt f := by
  unfold State.orchestrate
  cases h : Engine.new program capacity with
  | ok e => exact .inl ⟨e, rfl, rfl⟩
  | error f => exact .inr ⟨f, rfl, rfl⟩

theorem modify_at_length {α : Type} (l r : List α) (x : α) (f : α → α) :
    (l ++ x :: r).modify l.length f = l ++ f x :: r := by
  induction l with
  | nil => simp
  | cons a l ih => simp [List.modify_succ_cons, ih]

/-- An Output in a ring appends to `Q[(i+1) mod K]`, latches on `Q[0]`, and moves nothing else (45_orchestrator.md R131, R133). -/
theorem State.pushOut_ring (s : State) (v : Word) (hw : s.wiring = .ring) :
    (s.pushOut v).stations.map (·.inq) =
        (s.stations.map (·.inq)).modify ((s.index + 1) % s.stations.length) (fun q => q ++ [v]) ∧
      (s.pushOut v).last = (if (s.index + 1) % s.stations.length = 0 then v else s.last) ∧
      (s.pushOut v).outq = s.outq ∧
      (s.pushOut v).before.map (·.toEngine) = s.before.map (·.toEngine) ∧
      (s.pushOut v).after.map (·.toEngine) = s.after.map (·.toEngine) := by
  cases ha : s.after with
  | cons x xs =>
    simp only [State.pushOut, hw, State.stations, State.index, ha]
    rw [show (s.before.length + 1) % (s.before ++ s.toStation :: x :: xs).length = s.before.length + 1 from
      Nat.mod_eq_of_lt (by simp)]
    refine ⟨?_, by simp, by simp, by simp, by simp [Station.push]⟩
    have h := modify_at_length (List.map (·.inq) s.before ++ [s.inq]) (xs.map (·.inq)) x.inq (fun q => q ++ [v])
    simp only [List.length_append, List.length_map, List.length_cons, List.length_nil, Nat.zero_add,
      List.append_assoc, List.cons_append, List.nil_append] at h
    simp [Station.push, h]
  | nil =>
    simp only [State.pushOut, hw, State.stations, State.index, ha]
    rw [show (s.before.length + 1) % (s.before ++ [s.toStation]).length = 0 by simp]
    unfold State.pushFirst
    cases hb : s.before with
    | nil => simp [ha, hw]
    | cons x xs => simp [ha, hw, Station.push]

/-- The current engine leaves the other engines, their number and the wiring alone, whatever it executes. -/
theorem fetchExec_others {s t : State} (h : fetchExec s = .next t) :
    t.before.map (·.toEngine) = s.before.map (·.toEngine) ∧ t.after.map (·.toEngine) = s.after.map (·.toEngine) ∧
      t.wiring = s.wiring ∧ t.ost = s.ost := by
  rcases fetchExec_cases h with ⟨i, -, h⟩ | ⟨f, -, rfl⟩
  · cases i with
    | add m1 m2 m3 => obtain ⟨a, b, d, r, -, -, -, -, -, rfl⟩ := alu_ok h; simp
    | mul m1 m2 m3 => obtain ⟨a, b, d, r, -, -, -, -, -, rfl⟩ := alu_ok h; simp
    | lessThan m1 m2 m3 => obtain ⟨a, b, d, r, -, -, -, -, -, rfl⟩ := alu_ok h; simp
    | equals m1 m2 m3 => obtain ⟨a, b, d, r, -, -, -, -, -, rfl⟩ := alu_ok h; simp
    | jumpIfTrue m1 m2 => obtain ⟨a, b, n, -, -, -, rfl⟩ := jump_ok h; simp
    | jumpIfFalse m1 m2 => obtain ⟨a, b, n, -, -, -, rfl⟩ := jump_ok h; simp
    | halt => obtain ⟨-, rfl⟩ := halt_ok h; simp
    | adjustRelativeBase m1 => obtain ⟨a, -, -, -, rfl⟩ := adjustRelativeBase_ok h; simp
    | input m1 =>
      obtain ⟨d, -, -, ⟨-, rfl⟩ | ⟨v, rest, -, rfl⟩⟩ := input_ok h <;> simp
    | output m1 =>
      obtain ⟨a, -, -, rfl⟩ := output_ok h
      cases hw : s.wiring with
      | host => simp [State.pushOut_host s a hw, hw]
      | ring =>
        obtain ⟨-, -, -, h1, h2⟩ := s.pushOut_ring a hw
        simp [h1, h2, hw]
      | unbuilt f => simp [State.pushOut_unbuilt s a hw, hw]
  · simp

theorem State.toFirst_stations (s : State) : s.toFirst.stations = s.stations := by
  unfold State.toFirst
  cases h : s.before <;> cases hw : s.wiring <;> simp [State.stations, h, hw]

theorem State.toFirst_index (s : State) : s.toFirst.index = 0 := by
  unfold State.toFirst
  cases h : s.before <;> simp [State.index, h]

theorem State.toFirst_rest (s : State) :
    s.toFirst.last = s.last ∧ s.toFirst.ost = s.ost ∧ s.toFirst.wiring = s.wiring ∧ s.toFirst.outq = s.outq := by
  unfold State.toFirst
  cases s.before <;> simp

/-- Drive's bookkeeping moves the focus and sets `ost`; it changes no engine, no queue and no latch. -/
theorem State.driveAfter_keeps (s : State) :
    s.driveAfter.stations = s.stations ∧ s.driveAfter.last = s.last ∧ s.driveAfter.wiring = s.wiring ∧
      s.driveAfter.outq = s.outq := by
  have hr : s.runReturned.stations = s.stations ∧ s.runReturned.last = s.last ∧ s.runReturned.wiring = s.wiring ∧
      s.runReturned.outq = s.outq := by
    unfold State.runReturned
    cases ha : s.after with
    | cons x xs => cases hw : s.wiring <;> simp [State.stations, ha, hw]
    | nil =>
      simp only [State.endRound]
      split
      · exact ⟨rfl, rfl, rfl, rfl⟩
      · obtain ⟨h1, -, h3, h4⟩ := s.toFirst_rest
        exact ⟨s.toFirst_stations, h1, h3, h4⟩
  unfold State.driveAfter
  cases s.st
  · exact ⟨rfl, rfl, rfl, rfl⟩
  · exact hr
  · exact hr
  · exact ⟨rfl, rfl, rfl, rfl⟩

/-- One iteration of the current engine's `run` leaves the other engines and the wiring alone. -/
theorem engineTurn_others {s t : State} (h : s.engineTurn = .next t) :
    t.before.map (·.toEngine) = s.before.map (·.toEngine) ∧ t.after.map (·.toEngine) = s.after.map (·.toEngine) ∧
      t.wiring = s.wiring ∧ t.ost = s.ost := by
  rcases engineTurn_cases s with ⟨h', -⟩ | ⟨h', -⟩
  · rw [h'] at h
    cases h
    exact ⟨rfl, rfl, rfl, rfl⟩
  · exact fetchExec_others (h' ▸ h)

/-- What holds of every engine, split at the current one. -/
theorem State.forall_stations {s : State} {P : Station → Prop} (h : ∀ f, s.wiring ≠ .unbuilt f) :
    (∀ x ∈ s.stations, P x) ↔ (∀ x ∈ s.before, P x) ∧ P s.toStation ∧ ∀ x ∈ s.after, P x := by
  simp [State.stations_of_built h, or_imp, forall_and]

/-- What Drive's bookkeeping makes of `ost` (45_orchestrator.md R134, R135, R137). -/
theorem State.driveAfter_ost (s : State) :
    (s.st = .faulted ∧ s.driveAfter = s.setOst .failed) ∨
      (s.st ≠ .faulted ∧
        (s.driveAfter.ost = s.ost ∨ (s.allHalted = true ∧ s.after = [] ∧ s.driveAfter = s.setOst .done))) := by
  have hr : s.runReturned.ost = s.ost ∨ (s.allHalted = true ∧ s.after = [] ∧ s.runReturned = s.setOst .done) := by
    unfold State.runReturned
    cases ha : s.after with
    | cons x xs => exact .inl rfl
    | nil =>
      simp only [State.endRound]
      split
      · rename_i hh
        exact .inr ⟨hh, trivial, rfl⟩
      · exact .inl s.toFirst_rest.2.1
  unfold State.driveAfter
  cases s.st
  · exact .inr ⟨by simp, .inl rfl⟩
  · exact .inr ⟨by simp, hr⟩
  · exact .inr ⟨by simp, hr⟩
  · exact .inl ⟨rfl, rfl⟩

/-- An orchestrator whose seeding failed only reports the fault (45_orchestrator.md R132). -/
theorem step_unbuilt {s : State} {f : FaultInfo} (h : s.wiring = .unbuilt f) : step s = .fault (.seedingFault f) := by
  simp only [step, h]

/-- A machine that steps has an engine. -/
theorem built_of_step {s t : State} (h : step s = .next t) : ∀ f, s.wiring ≠ .unbuilt f := by
  intro f hw
  rw [step_unbuilt hw] at h
  cases h

/-- The step of a ring: one iteration of `run` and Drive's bookkeeping, or nothing once it is Done. -/
theorem step_ring_cases {s t : State} (hw : s.wiring = .ring) (h : step s = .next t) :
    (s.ost = .seeded ∧ ∃ u, s.engineTurn = .next u ∧ t = u.driveAfter) ∨ (s.ost = .done ∧ t = s) := by
  simp only [step, hw, State.ringStep] at h
  cases ho : s.ost with
  | seeded =>
    obtain ⟨u, hu⟩ := engineTurn_next s
    simp only [ho, hu] at h
    cases h
    exact .inl ⟨rfl, u, hu, rfl⟩
  | done =>
    simp only [ho] at h
    cases h
    exact .inr ⟨rfl, rfl⟩
  | failed =>
    simp only [ho, State.reportFault] at h
    split at h <;> cases h

/-- The step of an engine a host drives is one iteration of `run`. -/
theorem step_host_next {s t : State} (hw : s.wiring = .host) (h : step s = .next t) :
    s.engineTurn = .next t ∧ s.st ≠ .faulted := by
  simp only [step, hw, State.hostStep] at h
  cases hs : s.st with
  | ready => exact ⟨by simpa [hs] using h, by simp⟩
  | blockedOnInput => exact ⟨by simpa [hs] using h, by simp⟩
  | halted => exact ⟨by simpa [hs] using h, by simp⟩
  | faulted =>
    simp only [hs, State.reportFault] at h
    split at h <;> cases h

/-! ## Runs of the machine -/

theorem core_run_zero (s : State) : Host.Core.run Sys2Proof.core 0 s = .next s := Host.Core.run.eq_1 Sys2Proof.core s

theorem core_run_next (n : Nat) {s t : State} (h : step s = .next t) :
    Host.Core.run Sys2Proof.core (n + 1) s = Host.Core.run Sys2Proof.core n t := by
  have h' : Sys2Proof.core.step s = .next t := h
  refine (Host.Core.run.eq_2 Sys2Proof.core s n).trans ?_
  rw [h']

theorem core_run_fault (n : Nat) {s : State} {f : Fault} (h : step s = .fault f) :
    Host.Core.run Sys2Proof.core (n + 1) s = .fault f := by
  have h' : Sys2Proof.core.step s = .fault f := h
  refine (Host.Core.run.eq_2 Sys2Proof.core s n).trans ?_
  rw [h']

theorem core_run_refused (n : Nat) {s : State} {r : Refusal} (h : step s = .refused r) :
    Host.Core.run Sys2Proof.core (n + 1) s = .refused r := by
  have h' : Sys2Proof.core.step s = .refused r := h
  refine (Host.Core.run.eq_2 Sys2Proof.core s n).trans ?_
  rw [h']

/-- Runs compose. -/
theorem core_run_add (n m : Nat) : ∀ {s t : State}, Host.Core.run Sys2Proof.core n s = .next t →
    Host.Core.run Sys2Proof.core (n + m) s = Host.Core.run Sys2Proof.core m t := by
  induction n with
  | zero =>
    intro s t h
    rw [core_run_zero] at h
    cases h
    rw [Nat.zero_add]
  | succ n ih =>
    intro s t h
    rw [Nat.succ_add_eq_add_succ, Nat.add_succ]
    cases hs : step s with
    | next u =>
      rw [core_run_next _ hs] at h ⊢
      exact ih h
    | fault r =>
      rw [core_run_fault _ hs] at h
      cases h
    | refused r =>
      rw [core_run_refused _ hs] at h
      cases h

end Sys2Proof.Machine
end

