-- ==== Sys2Proof/Tests/Slice0.lean ====
section
/-!
SUPPORT. Tests. Expected values are the spec's: 95_test_vectors.md (T, X, A, M, I, J, H, P rows), the worked decodings of 30_encoding.md section 6,
or worked by hand from a rule. The second half shows, for each obligation with hypotheses, a state and operands that meet them.
-/

namespace Sys2Proof.Tests

open Sys2Proof Sys2Proof.Machine

/-- The machine with a program loaded, as `State.boot` leaves it with no capacity and no input. -/
def load (program : List Word) : State := { State.reset with mem := Memory.ofProgram program }

/-- The same with input waiting. -/
def loadIn (program queue : List Word) : State := { load program with inq := queue }

/-- The same with a capacity. -/
def loadCap (program : List Word) (c : Nat) : State := { load program with memCapacity := some c }

/-- The next state of an outcome. -/
def after (o : Host.Outcome State Fault Refusal) : Option State :=
  match o with
  | .next t => some t
  | .fault _ => none
  | .refused _ => none

/-- The state one step later. -/
def stepped (s : State) : State := (after (step s)).getD s

/-- The fault a state holds. -/
def faultOf (s : State) : Option FaultInfo := s.flt.map (·.info)

/-! ## Well-formedness: an ill-formed term for each destination -/

theorem test_wf_add_immediate_destination : (Instr.add .position .position .immediate).wellFormed = false := by decide
theorem test_wf_mul_immediate_destination : (Instr.mul .position .position .immediate).wellFormed = false := by decide
theorem test_wf_lessThan_immediate_destination : (Instr.lessThan .position .position .immediate).wellFormed = false := by decide
theorem test_wf_equals_immediate_destination : (Instr.equals .position .position .immediate).wellFormed = false := by decide
theorem test_wf_input_immediate_destination : (Instr.input .immediate).wellFormed = false := by decide
theorem test_wf_immediate_values_are_legal :
    (Instr.add .immediate .immediate .relative).wellFormed = true ∧ (Instr.output .immediate).wellFormed = true ∧
      Instr.halt.wellFormed = true := by decide

/-! ## Decoding: words written out digit by digit (30_encoding.md R51, R56), and the decoder's faults -/

/-- digits c=2, b=1, a=1, opcode 01 -/
theorem test_decode_add : decode 21101 = .ok (.add .immediate .immediate .relative) := by decide
/-- digits c=0, b=1, a=0, opcode 02 -/
theorem test_decode_mul : decode 1002 = .ok (.mul .position .immediate .position) := by decide
/-- digit a=2, opcode 03 -/
theorem test_decode_input : decode 203 = .ok (.input .relative) := by decide
/-- digit a=2, opcode 04 -/
theorem test_decode_output : decode 204 = .ok (.output .relative) := by decide
/-- digits b=1, a=0, opcode 05 -/
theorem test_decode_jumpIfTrue : decode 1005 = .ok (.jumpIfTrue .position .immediate) := by decide
/-- digits b=2, a=1, opcode 06 -/
theorem test_decode_jumpIfFalse : decode 2106 = .ok (.jumpIfFalse .immediate .relative) := by decide
/-- digits c=2, b=0, a=1, opcode 07 -/
theorem test_decode_lessThan : decode 20107 = .ok (.lessThan .immediate .position .relative) := by decide
/-- digits c=0, b=2, a=1, opcode 08 -/
theorem test_decode_equals : decode 2108 = .ok (.equals .immediate .relative .position) := by decide
/-- digit a=1, opcode 09 -/
theorem test_decode_adjustRelativeBase : decode 109 = .ok (.adjustRelativeBase .immediate) := by decide
/-- opcode 99; X8 and X9: a digit at 10^5, an unused mode digit -/
theorem test_decode_halt : decode 99 = .ok .halt ∧ decode 100099 = .ok .halt ∧ decode 1099 = .ok .halt := by decide
/-- X1, X3, X4, X5, X6, X7 -/
theorem test_decode_faults :
    decode 0 = .error (.invalidOpcode 0) ∧ decode (-1) = .error (.invalidOpcode (-1)) ∧
      decode (-99) = .error (.invalidOpcode (-99)) ∧ decode 377 = .error (.invalidOpcode 377) ∧
      decode 301 = .error (.invalidParameterMode 1 3) ∧ decode 30099 = .error (.invalidParameterMode 3 3) := by decide
/-- Words of the spec's listings, encoded (P1, P3, M1). -/
theorem test_encode :
    encode (.add .position .immediate .position) = 1001 ∧ encode (.mul .position .position .relative) = 20002 ∧
      encode (.add .relative .relative .position) = 2201 ∧ encode .halt = 99 := by decide
theorem test_assemble : assemble (.jumpIfTrue .position .immediate) [10, 0] = [1005, 10, 0] := by decide

/-! ## The host's words -/

theorem test_decodeTableWord : decodeTableWord 64 1002 = some (.mul .position .immediate .position) ∧
    decodeTableWord 8 99 = some .halt ∧ decodeTableWord 64 0 = none ∧
    decodeTableWord 64 (2 ^ 64 - 1) = none := by decide
theorem test_withFetchWord_halt : (stepped (State.reset.withFetchWord 64 99)).st = .halted := by decide
/-- `1`, then three words of zeros: `mem[0] <- mem[0] + mem[0]` (X14). -/
theorem test_withFetchWord_add : (stepped (State.reset.withFetchWord 64 1)).mem.read 0 = 2 := by decide

/-! ## Memory -/

theorem test_reset_memory_wf : State.reset.mem.wf := by decide
/-- A18: a write past the extent. -/
theorem test_write_extends : (Memory.ofProgram [1, 2]).write 5 7 = { cells := [(0, 1), (1, 2), (5, 7)], extent := 6 } := by decide
/-- Writing 0 lists nothing, and the extent grows all the same (20_memory.md R32). -/
theorem test_write_zero : (Memory.ofProgram [1, 2]).write 1 0 = { cells := [(0, 1)], extent := 2 } ∧
    (Memory.ofProgram [1, 2]).write 9 0 = { cells := [(0, 1), (1, 2)], extent := 10 } := by decide

/-! ## One step of each instruction -/

/-- A1: the largest sum. -/
theorem test_add_max : (stepped (load [1101, 9223372036854775806, 1, 5, 99])).mem.read 5 = 9223372036854775807 := by decide
/-- A2: one more overflows, and memory stays. -/
theorem test_add_overflow :
    faultOf (stepped (load [1101, 9223372036854775807, 1, 0, 99])) = some (.arithmeticOverflow 9223372036854775808) ∧
      (stepped (load [1101, 9223372036854775807, 1, 0, 99])).mem = (load [1101, 9223372036854775807, 1, 0, 99]).mem := by decide
/-- A8: the smallest product. -/
theorem test_mul_min :
    (stepped (load [1102, -4294967296, 2147483648, 5, 99])).mem.read 5 = -9223372036854775808 := by decide
/-- A9: `INT_MIN * -1`. -/
theorem test_mul_overflow :
    faultOf (stepped (load [1102, -9223372036854775808, -1, 5, 99])) = some (.arithmeticOverflow 9223372036854775808) := by
  decide
/-- A10: the comparison is signed. -/
theorem test_lessThan_signed : (stepped (load [1107, -1, 0, 5, 99])).mem.read 5 = 1 := by decide
/-- A12: the operands are not swapped. -/
theorem test_lessThan_order : (stepped (load [1107, 4, 3, 5, 99])).mem.read 5 = 0 := by decide
/-- A14. -/
theorem test_equals : (stepped (load [1108, 5, 5, 5, 99])).mem.read 5 = 1 := by decide
/-- A15. -/
theorem test_equals_sign : (stepped (load [1108, 5, -5, 5, 99])).mem.read 5 = 0 := by decide
/-- I2, first step. -/
theorem test_input : (stepped (loadIn [3, 0, 3, 1, 99] [10, 20, 30])).mem.read 0 = 10 ∧
    (stepped (loadIn [3, 0, 3, 1, 99] [10, 20, 30])).inq = [20, 30] ∧
    (stepped (loadIn [3, 0, 3, 1, 99] [10, 20, 30])).ip = 2 := by decide
/-- T6 and X12: an empty queue blocks and changes nothing else; a fault comes before the queue test. -/
theorem test_input_blocks : stepped (load [3, 0, 99]) = { load [3, 0, 99] with st := .blockedOnInput } ∧
    faultOf (stepped (load [103, 0, 99])) = some (.invalidDestinationMode 1) := by decide
/-- I3. -/
theorem test_output : (stepped (load [104, -7, 99])).outq = [-7] := by decide
/-- I5: Relative, with `rb` 3. -/
theorem test_output_relative :
    (stepped { load [109, 3, 204, -3, 99] with ip := 2, rb := 3 }).outq = [109] := by decide
/-- J5: a negative condition is true. -/
theorem test_jumpIfTrue : (stepped (load [1105, -5, 4, 99, 99])).ip = 4 := by decide
/-- J8: the second parameter is resolved before the test. -/
theorem test_jumpIfTrue_resolves_both : faultOf (stepped (load [5, 9, -4, 99])) = some (.negativeAddress (-4)) := by decide
/-- J3. -/
theorem test_jumpIfFalse : (stepped (load [1106, 0, 4, 99, 104, 7, 99])).ip = 4 := by decide
/-- J4: not taken. -/
theorem test_jumpIfFalse_not_taken : (stepped (load [1106, 5, 4, 99, 104, 7, 99])).ip = 3 := by decide
/-- H2: Position. -/
theorem test_adjustRelativeBase : (stepped (load [9, 0, 99])).rb = 9 := by decide
/-- H3, second step. -/
theorem test_adjustRelativeBase_overflow :
    faultOf (stepped { load [109, 9223372036854775807, 109, 1, 99] with ip := 2, rb := 9223372036854775807 }) =
      some (.arithmeticOverflow 9223372036854775808) := by decide
/-- T1. -/
theorem test_halt : stepped (load [99]) = { load [99] with st := .halted, ip := 1 } := by decide

/-- M12: a fetch at or above the capacity records no word. -/
theorem test_fetch_past_capacity : (stepped { loadCap [1105, 1, 60, 99] 50 with ip := 60 }).flt =
    some { info := .memoryCapacityExceeded 60, faultIp := 60, word := none } := by decide
/-- M5: a negative `rb` is legal; `a = 1`, `b = mem[2] = 22101`, destination 3. -/
theorem test_negative_relative_base :
    (stepped { load [109, -3, 22101, 1, 5, 6, 99] with ip := 2, rb := -3 }).mem.read 3 = 22102 := by decide
/-- M13: an image longer than the capacity gives no engine. -/
theorem test_new_too_long :
    Engine.new [1, 2, 3, 4, 5, 6] (some 5) = .error (.memoryCapacityExceeded 5) := by decide

/-! ## The ring -/

/-- A ring of `n + 1` engines of one program with the given queues. -/
def ringOf (program : List Word) (q0 : List Word) (qs : List (List Word)) : State :=
  { loadIn program q0 with
    after := qs.map fun q => { toEngine := (load program).toEngine, inq := q }, wiring := .ring }

/-- The last engine's Output goes to `Q[0]` and is latched (45_orchestrator.md R131, R133). -/
theorem test_ring_latch :
    (stepped { ringOf [104, 9, 99] [] [] with before := [{ toEngine := (load [99]).toEngine, inq := [1] }] }).last = 9 ∧
      ((stepped { ringOf [104, 9, 99] [] [] with
        before := [{ toEngine := (load [99]).toEngine, inq := [1] }] }).stations.map (·.inq)) = [[1, 9], []] := by decide
/-- Seeding (45_orchestrator.md R132), with the phases 3 and 4 and `F0 = 7`. -/
theorem test_orchestrate :
    State.orchestrate [99] none 3 [4] 7 = { ringOf [99] [3, 7] [[4]] with last := 7 } := by decide
/-- Seeding with an image longer than the capacity (45_orchestrator.md R132 with the image of M13): Failed, and no engine. -/
theorem test_orchestrate_fault :
    (State.orchestrate [1, 2, 3, 4, 5, 6] (some 5) 3 [4] 7).ost = .failed ∧
      (State.orchestrate [1, 2, 3, 4, 5, 6] (some 5) 3 [4] 7).stations = [] := by decide

/-! ## Witnesses: for each obligation with hypotheses, values that meet them together -/

/-- Five words, no capacity. -/
def eng : Engine := (load [1, 0, 0, 0, 99]).toEngine

theorem witness_ReadPastExtentIsZero :
    addrCheck eng (-1) = .error (.negativeAddress (-1)) ∧ addrCheck eng 4 = .ok 4 ∧ 4 < eng.mem.extent ∧
      addrCheck eng 5 = .ok 5 ∧ ¬ 5 < eng.mem.extent := by decide

theorem witness_WriteChangesOneCell :
    addrCheck eng (-1) = .error (.negativeAddress (-1)) ∧ addrCheck eng 4 = .ok 4 ∧ addrCheck eng 7 = .ok 7 ∧
      eng.mem.extent ≤ 6 ∧ resolveDestination eng 3 .position = .ok 0 := by decide

theorem witness_AddressCheckRanges :
    ((-1 : Int) < 0) ∧ ((loadCap [99] 50).cap : Int) ≤ 50 ∧ (49 : Int) < (loadCap [99] 50).cap ∧
      (load [99]).memCapacity = none ∧ (loadCap [99] 50).memCapacity = some 50 := by decide

theorem witness_RangeCheckNeverWraps :
    ((-2 ^ 63 : Int) ≤ -9223372036854775808 ∧ (-9223372036854775808 : Int) ≤ 2 ^ 63 - 1) ∧
      ((-2 ^ 63 : Int) ≤ 9223372036854775807 ∧ (9223372036854775807 : Int) ≤ 2 ^ 63 - 1) ∧
      (-9223372036854775809 : Int) < -2 ^ 63 ∧ (2 ^ 63 - 1 : Int) < 9223372036854775808 := by decide

theorem witness_UnboundedMemoryIsNeverExceeded :
    (load [1, -1, 0, 0]).memCapacity = none ∧ ((load [1, -1, 0, 0]).ip : Int) ≤ intMax ∧ (load [1, -1, 0, 0]).flt = none ∧
      ∃ t, fetchExec (load [1, -1, 0, 0]) = .next t ∧ ∃ r, t.flt = some r := ⟨rfl, by decide, rfl, _, rfl, _, rfl⟩

/-- An engine whose `rb` and `ip` stand at the top of their range. -/
def topEngine : Engine := { eng with ip := 9223372036854775807, rb := 9223372036854775807 }

theorem witness_ResolveValueByMode :
    ¬ InRange ((topEngine.ip : Int) + 1) ∧
      (InRange (((loadCap [1] 1).ip : Int) + 1) ∧
        memRead (loadCap [1] 1).toEngine (((loadCap [1] 1).ip : Int) + 1) = .error (.memoryCapacityExceeded 1)) ∧
      (memRead { eng with rb := 9223372036854775807 } (0 + 1) = .ok 0 ∧ InRange (9223372036854775807 + (0 : Word).toInt)) ∧
      (memRead { eng with ip := 3, rb := 9223372036854775807 } (3 + 1) = .ok 99 ∧
        ¬ InRange (9223372036854775807 + (99 : Word).toInt)) := by decide

theorem witness_ResolveDestinationByMode :
    ¬ InRange ((topEngine.ip : Int) + 3) ∧ InRange (((loadCap [1] 3).ip : Int) + 3) ∧
      memRead (loadCap [1] 3).toEngine (((loadCap [1] 3).ip : Int) + 3) = .error (.memoryCapacityExceeded 3) ∧
      memRead { eng with rb := 9223372036854775807 } (0 + 3) = .ok 0 ∧ InRange (9223372036854775807 + (0 : Word).toInt) ∧
      memRead { eng with ip := 1, rb := 9223372036854775807 } (1 + 3) = .ok 99 ∧
      ¬ InRange (9223372036854775807 + (99 : Word).toInt) := by decide

theorem witness_DecodeReadsTheDigits :
    0 ≤ (100099 : Word).toInt ∧ (100099 : Word).toInt.toNat % 100 = Instr.halt.opcode ∧
      digit (100099 : Word).toInt.toNat 2 ≤ 2 ∧ digit (100099 : Word).toInt.toNat 3 ≤ 2 ∧
      digit (100099 : Word).toInt.toNat 4 ≤ 2 ∧ (Instr.input .relative).modes[0]? = some .relative := by decide

theorem witness_DecodeRefusals :
    (-1 : Word).toInt < 0 ∧ (0 : Word).toInt.toNat % 100 ∉ [1, 2, 3, 4, 5, 6, 7, 8, 9, 99] ∧
      (98 : Word).toInt.toNat % 100 ∉ [1, 2, 3, 4, 5, 6, 7, 8, 9, 99] ∧
      ((301 : Word).toInt.toNat % 100 ∈ [1, 2, 3, 4, 5, 6, 7, 8, 9, 99] ∧ 2 < digit (301 : Word).toInt.toNat 2) ∧
      ((30099 : Word).toInt.toNat % 100 ∈ [1, 2, 3, 4, 5, 6, 7, 8, 9, 99] ∧ 2 < digit (30099 : Word).toInt.toNat 4 ∧
        digit (30099 : Word).toInt.toNat 2 ≤ 2 ∧ digit (30099 : Word).toInt.toNat 3 ≤ 2) := by decide

/-- An engine blocked on its Input, with the given queue. -/
def blocked (queue : List Word) : State := { loadIn [3, 0, 99] queue with st := .blockedOnInput }

theorem witness_StepRunsDecodedInstruction :
    (memRead (load [99]).toEngine (load [99]).ip = .ok 99 ∧ decode 99 = .ok .halt ∧ (load [99]).st = .ready ∧
        (load [99]).wiring = .host) ∧
      (memRead (blocked [5]).toEngine (blocked [5]).ip = .ok 3 ∧ decode 3 = .ok (.input .position) ∧
        (blocked [5]).st = .blockedOnInput ∧ (blocked [5]).inq ≠ []) ∧
      (memRead (ringOf [99] [] [[]]).toEngine (ringOf [99] [] [[]]).ip = .ok 99 ∧ (ringOf [99] [] [[]]).st = .ready ∧
        (ringOf [99] [] [[]]).wiring = .ring ∧ (ringOf [99] [] [[]]).ost = .seeded ∧
        ∃ t, exec .halt (ringOf [99] [] [[]]) = .next t) :=
  ⟨by decide, by decide, by decide, by decide, by decide, by decide, _, rfl⟩

theorem witness_FetchAndDecodeFaultsAreTaken :
    ((loadCap [99] 1).cap ≤ { loadCap [99] 1 with ip := 1 }.ip ∧ (loadCap [99] 1).wiring = .host ∧
        (loadCap [99] 1).st = .ready) ∧
      (memRead State.reset.toEngine 0 = .ok 0 ∧ decode 0 = .error (.invalidOpcode 0)) ∧
      (memRead (load [301]).toEngine 0 = .ok 301 ∧ decode 301 = .error (.invalidParameterMode 1 3)) := by decide

theorem witness_AddCompletes :
    resolveValue (load [1101, 9223372036854775806, 1, 5]).toEngine 1 .immediate = .ok 9223372036854775806 ∧
      resolveValue (load [1101, 9223372036854775806, 1, 5]).toEngine 2 .immediate = .ok 1 ∧
      resolveDestination (load [1101, 9223372036854775806, 1, 5]).toEngine 3 .position = .ok 5 ∧
      InRange ((9223372036854775806 : Word).toInt + (1 : Word).toInt) ∧
      ((load [1101, 9223372036854775806, 1, 5]).ip : Int) + 4 ≤ intMax := by decide

theorem witness_MulCompletes :
    resolveValue (load [1102, -4294967296, 2147483648, 5]).toEngine 1 .immediate = .ok (-4294967296) ∧
      resolveValue (load [1102, -4294967296, 2147483648, 5]).toEngine 2 .immediate = .ok 2147483648 ∧
      resolveDestination (load [1102, -4294967296, 2147483648, 5]).toEngine 3 .position = .ok 5 ∧
      InRange ((-4294967296 : Word).toInt * (2147483648 : Word).toInt) ∧
      ((load [1102, -4294967296, 2147483648, 5]).ip : Int) + 4 ≤ intMax := by decide

/-- The last place at which a four-word instruction can stand and still advance; every slot reads 0. -/
def high4 : State := { State.reset with ip := 9223372036854775803 }

theorem witness_LessThanCompletes :
    resolveValue high4.toEngine 1 .immediate = .ok 0 ∧ resolveValue high4.toEngine 2 .position = .ok 0 ∧
      resolveDestination high4.toEngine 3 .relative = .ok 0 ∧ (high4.ip : Int) + 4 ≤ intMax := by decide

theorem witness_EqualsCompletes :
    resolveValue high4.toEngine 1 .relative = .ok 0 ∧ resolveValue high4.toEngine 2 .immediate = .ok 0 ∧
      resolveDestination high4.toEngine 3 .position = .ok 0 ∧ (high4.ip : Int) + 4 ≤ intMax := by decide

theorem witness_InputCompletes :
    resolveDestination (blocked [5]).toEngine 1 .position = .ok 0 ∧ (blocked [5]).inq = 5 :: [] ∧
      ((blocked [5]).ip : Int) + 2 ≤ intMax := by decide

theorem witness_InputSuspends :
    resolveDestination (load [3, 0, 99]).toEngine 1 .position = .ok 0 ∧ (load [3, 0, 99]).inq = [] ∧
      ((load [3, 0, 99]).ip : Int) + 2 ≤ intMax := by decide

theorem witness_OutputCompletesForHost :
    resolveValue (load [104, -7]).toEngine 1 .immediate = .ok (-7) ∧ ((load [104, -7]).ip : Int) + 2 ≤ intMax ∧
      (load [104, -7]).wiring = .host := by decide

/-- One engine, two engines, and the last of two. -/
theorem witness_OutputFeedsNextEngine :
    ∀ s ∈ [ringOf [104, -7] [] [], ringOf [104, -7] [] [[]],
        { ringOf [104, -7] [] [] with before := [(load [99]).toStation] }],
      resolveValue s.toEngine 1 .immediate = .ok (-7) ∧ (s.ip : Int) + 2 ≤ intMax ∧ s.wiring = .ring := by decide

theorem witness_JumpIfTrueCompletes :
    (resolveValue (load [1105, -5, 0]).toEngine 1 .immediate = .ok (-5) ∧
        resolveValue (load [1105, -5, 0]).toEngine 2 .immediate = .ok 0 ∧ (-5 : Word) ≠ 0 ∧ 0 ≤ (0 : Word).toInt) ∧
      (resolveValue (load [1105, 0, -4]).toEngine 1 .immediate = .ok 0 ∧
        resolveValue (load [1105, 0, -4]).toEngine 2 .immediate = .ok (-4) ∧
        ((load [1105, 0, -4]).ip : Int) + 3 ≤ intMax) := by decide

theorem witness_JumpIfFalseCompletes :
    (resolveValue (load [1106, 0, 0]).toEngine 1 .immediate = .ok 0 ∧
        resolveValue (load [1106, 0, 0]).toEngine 2 .immediate = .ok 0 ∧ 0 ≤ (0 : Word).toInt) ∧
      (resolveValue (load [1106, -1, -4]).toEngine 1 .immediate = .ok (-1) ∧
        resolveValue (load [1106, -1, -4]).toEngine 2 .immediate = .ok (-4) ∧ (-1 : Word) ≠ 0 ∧
        ((load [1106, -1, -4]).ip : Int) + 3 ≤ intMax) := by decide

theorem witness_AdjustRelativeBaseCompletes :
    resolveValue { load [109, 1] with rb := 9223372036854775806 }.toEngine 1 .immediate = .ok 1 ∧
      InRange ((9223372036854775806 : Word).toInt + (1 : Word).toInt) ∧ ((load [109, 1]).ip : Int) + 2 ≤ intMax := by decide

theorem witness_HaltCompletes : (({ State.reset with ip := 9223372036854775806 } : State).ip : Int) + 1 ≤ intMax := by decide

/-- `rb` at INT_MAX, parameters 1, -1 and 0. -/
def edge (p1 p2 : Word) : State := { load [0, p1, p2, 0] with rb := 9223372036854775807 }

theorem witness_ComputedValueFaultsAreTaken :
    resolveValue (edge 1 (-1)).toEngine 1 .immediate = .ok 1 ∧ resolveValue (edge 1 (-1)).toEngine 2 .immediate = .ok (-1) ∧
      resolveValue (edge 0 (-1)).toEngine 1 .immediate = .ok 0 ∧
      ¬ InRange ((edge 1 (-1)).rb.toInt + (1 : Word).toInt) ∧ (-1 : Word).toInt < 0 ∧
      resolveDestination (edge 1 (-1)).toEngine 3 .position = .ok 0 ∧
      resolveValue (edge 9223372036854775807 1).toEngine 1 .immediate = .ok 9223372036854775807 ∧
      ¬ InRange ((9223372036854775807 : Word).toInt + (1 : Word).toInt) ∧
      resolveValue (edge (-9223372036854775808) (-1)).toEngine 1 .immediate = .ok (-9223372036854775808) ∧
      ¬ InRange ((-9223372036854775808 : Word).toInt * (-1 : Word).toInt) := by decide

theorem witness_FirstOperandFaultIsTaken :
    resolveValue (edge (-1) 0).toEngine 1 .position = .error (.negativeAddress (-1)) ∧
      (resolveValue (edge 0 1).toEngine 1 .immediate = .ok 0 ∧
        resolveValue (edge 0 1).toEngine 2 .relative = .error (.arithmeticOverflow 9223372036854775808)) ∧
      (resolveValue (loadCap [1101, 0, 0, 4] 4).toEngine 1 .immediate = .ok 0 ∧
        resolveValue (loadCap [1101, 0, 0, 4] 4).toEngine 2 .immediate = .ok 0 ∧
        resolveDestination (loadCap [1101, 0, 0, 4] 4).toEngine 3 .position = .error (.memoryCapacityExceeded 4)) ∧
      resolveDestination (edge (-1) 0).toEngine 1 .position = .error (.negativeAddress (-1)) := by decide

/-- `ip` at a place near the top, with a 1 in the last cell below INT_MAX. -/
def high (ip : Nat) : State :=
  { State.reset with mem := { cells := [(9223372036854775806, 1)], extent := 9223372036854775807 }, ip := ip }

theorem witness_SequencingOverflowIsTaken :
    intMax < ((high 9223372036854775807).ip : Int) + 1 ∧
      (intMax < ((high 9223372036854775806).ip : Int) + 2 ∧
        resolveDestination (high 9223372036854775806).toEngine 1 .position = .ok 0 ∧
        resolveValue (high 9223372036854775806).toEngine 1 .immediate = .ok 0 ∧ InRange (0 + (0 : Word).toInt)) ∧
      (intMax < ((high 9223372036854775805).ip : Int) + 3 ∧
        resolveValue (high 9223372036854775805).toEngine 1 .immediate = .ok 1 ∧
        resolveValue (high 9223372036854775805).toEngine 1 .position = .ok 0 ∧
        resolveValue (high 9223372036854775805).toEngine 2 .immediate = .ok 0) ∧
      (intMax < ((high 9223372036854775804).ip : Int) + 4 ∧
        resolveValue (high 9223372036854775804).toEngine 1 .immediate = .ok 0 ∧
        resolveValue (high 9223372036854775804).toEngine 2 .immediate = .ok 1 ∧
        resolveDestination (high 9223372036854775804).toEngine 3 .position = .ok 0 ∧
        InRange ((0 : Word).toInt + (1 : Word).toInt) ∧ InRange ((0 : Word).toInt * (1 : Word).toInt)) := by decide

theorem witness_InvalidDestinationModeAtDispatch :
    (memRead (load [11101]).toEngine 0 = .ok 11101 ∧ decode 11101 = .ok (.add .immediate .immediate .immediate) ∧
        digit (11101 : Word).toInt.toNat 4 = 1) ∧
      (memRead (load [103]).toEngine 0 = .ok 103 ∧ decode 103 = .ok (.input .immediate) ∧
        digit (103 : Word).toInt.toNat 2 = 1) ∧
      (memRead (load [1101]).toEngine 0 = .ok 1101 ∧ decode 1101 = .ok (.add .immediate .immediate .position) ∧
        ¬ digit (1101 : Word).toInt.toNat 4 = 1 ∧ ∃ t, fetchExec (load [1101]) = .next t) :=
  ⟨by decide, by decide, by decide, by decide, by decide, _, rfl⟩

theorem witness_AluFrame :
    (∃ t, exec (.add .immediate .immediate .position) (load [1101, 1, 1, 20, 99]) = .next t ∧ t.st = .ready) ∧
      ∃ t, exec (.mul .position .immediate .position) (load [2, -1, 1, 20, 99]) = .next t ∧ t.st = .faulted :=
  ⟨⟨_, rfl, rfl⟩, _, rfl, rfl⟩

theorem witness_InputFrame :
    (∃ t, exec (.input .position) (loadIn [3, 0, 99] [5]) = .next t ∧ t.st = .ready) ∧
      (∃ t, exec (.input .position) (load [3, 0, 99]) = .next t ∧ t.st = .blockedOnInput) ∧
      ∃ t, exec (.input .immediate) (load [103, 0, 99]) = .next t ∧ t.st = .faulted :=
  ⟨⟨_, rfl, rfl⟩, ⟨_, rfl, rfl⟩, _, rfl, rfl⟩

theorem witness_OutputFrame :
    (∃ t, exec (.output .immediate) (load [104, -7]) = .next t ∧ t.st ≠ .faulted) ∧
      (∃ t, exec (.output .immediate) (ringOf [104, -7] [] [[]]) = .next t ∧ (ringOf [104, -7] [] [[]]).wiring = .ring) ∧
      ∃ t, exec (.output .position) (load [4, -7]) = .next t ∧ t.st = .faulted :=
  ⟨⟨_, rfl, by decide⟩, ⟨_, rfl, rfl⟩, _, rfl, rfl⟩

theorem witness_ControlFrame :
    (∃ t, exec (.jumpIfTrue .immediate .immediate) (load [1105, 1, 4]) = .next t ∧ t.st ≠ .faulted) ∧
      (∃ t, exec (.jumpIfFalse .immediate .immediate) (load [1106, 0, -4]) = .next t ∧ t.st = .faulted) ∧
      (∃ t, exec (.adjustRelativeBase .immediate) (load [109, 5]) = .next t ∧ t.st ≠ .faulted) ∧
      ∃ t, exec .halt (load [99]) = .next t ∧ t.st ≠ .faulted :=
  ⟨⟨_, rfl, by decide⟩, ⟨_, rfl, rfl⟩, ⟨_, rfl, by decide⟩, _, rfl, by decide⟩

theorem witness_WritersOfMemoryAndRelativeBase :
    (∃ t, exec (.adjustRelativeBase .immediate) (load [109, 5]) = .next t ∧ t.rb ≠ (load [109, 5]).rb) ∧
      ∃ t, exec (.add .immediate .immediate .position) (load [1101, 1, 1, 20, 99]) = .next t ∧
        t.mem ≠ (load [1101, 1, 1, 20, 99]).mem :=
  ⟨⟨_, rfl, by decide⟩, _, rfl, by decide⟩

theorem witness_AdvanceByLength :
    (∃ t, exec .halt (load [99]) = .next t ∧ t.st = .halted) ∧
      ∃ t, exec (.equals .immediate .immediate .position) (load [1108, 5, 5, 5, 99]) = .next t ∧ t.st = .ready :=
  ⟨⟨_, rfl, rfl⟩, _, rfl, rfl⟩

/-- A17: the destination is the next instruction's word. -/
theorem witness_StoredWordIsFetched :
    resolveValue (load [1101, 90, 9, 4, 0]).toEngine 1 .immediate = .ok 90 ∧
      resolveValue (load [1101, 90, 9, 4, 0]).toEngine 2 .immediate = .ok 9 ∧
      resolveDestination (load [1101, 90, 9, 4, 0]).toEngine 3 .position = .ok 4 ∧ sumResult 90 9 = .ok 99 ∧
      ∃ t, exec (.add .immediate .immediate .position) (load [1101, 90, 9, 4, 0]) = .next t ∧ t.st = .ready ∧ 4 = t.ip :=
  ⟨by decide, by decide, by decide, by decide, _, rfl, rfl, rfl⟩

theorem witness_EngineSeesOnlyItsStation :
    ((load [104, -7]).toStation = (ringOf [104, -7] [] [[1]]).toStation ∧
        ∃ t, exec (.output .immediate) (load [104, -7]) = .next t) ∧
      ((load [104, -7]).toStation = { load [104, -7] with outq := [1] }.toStation ∧ (load [104, -7]).wiring = .host) :=
  ⟨⟨rfl, _, rfl⟩, rfl, rfl⟩

theorem witness_ExtentIsUnobservable :
    (load [1, 0, 0, 0, 99]).mem.wf ∧ (load [1, 0, 0, 0, 99]).mem.extent ≤ 9 ∧ (load [1, 0, 0, 0, 99]).wiring = .host ∧
      ∃ t, step (load [1, 0, 0, 0, 99]) = .next t := ⟨by decide, by decide, rfl, _, rfl⟩

/-- The invariant of an engine that is not blocked and has no record. -/
theorem inv_of_clean (e : Engine) (hm : e.mem.wf) (hc : e.cap ≤ Config.unboundedCap) (hx : e.mem.extent ≤ e.cap)
    (hi : (e.ip : Int) ≤ intMax) (hf : e.flt = none) (h1 : e.st ≠ .faulted) (h2 : e.st ≠ .blockedOnInput) : e.Inv :=
  ⟨hm, hc, hx, hi, by simp [hf, h1], fun h => absurd h h2, by simp [hf]⟩

theorem inv_load (program : List Word) (h : program.length ≤ Config.unboundedCap) : (load program).toEngine.Inv :=
  inv_of_clean _ (Memory.wf_ofProgram program) (Nat.le_refl _) h (by simp [load, State.reset, Engine.reset]) rfl (by simp [load, State.reset, Engine.reset]) (by simp [load, State.reset, Engine.reset])

theorem inv_blocked_empty : (blocked []).toEngine.Inv :=
  ⟨by decide, by decide, by decide, by decide, by decide, fun _ => ⟨.position, 0, 2, by decide, by decide, by decide⟩,
    fun _ h => by cases h⟩

theorem inv_blocked (queue : List Word) : (blocked queue).toEngine.Inv := inv_blocked_empty

theorem witness_ExecutionStateMachine :
    ((load [99]).toEngine.Inv ∧ (load [99]).st = .ready) ∧ ((blocked []).toEngine.Inv ∧ (blocked []).inq = []) ∧
      ((blocked [5]).toEngine.Inv ∧ (blocked [5]).inq ≠ []) ∧
      (stepped (load [99])).toEngine.Inv ∧ (stepped (load [99])).st = .halted :=
  ⟨⟨inv_load _ (by decide), rfl⟩, ⟨inv_blocked _, rfl⟩, ⟨inv_blocked _, by decide⟩,
    inv_of_clean _ (by decide) (by decide) (by decide) (by decide) (by decide) (by decide) (by decide), by decide⟩

theorem witness_RunOnHaltedDoesNothing : (stepped (load [99])).st = .halted := by decide

theorem witness_RunOnBlockedWithoutInputDoesNothing :
    (blocked []).st = .blockedOnInput ∧ (blocked []).inq = [] ∧ (blocked []).toEngine.Inv := ⟨rfl, rfl, inv_blocked _⟩

theorem witness_RunOnFaultedReportsAgain :
    (stepped (load [0])).st = .faulted ∧
      (stepped (load [0])).flt = some { info := .invalidOpcode 0, faultIp := 0, word := some 0 } ∧
      (stepped (load [0])).wiring = .host := by decide

theorem witness_ResumeCompletesTheInput :
    (blocked [5]).toEngine.Inv ∧ (blocked [5]).st = .blockedOnInput ∧ (blocked [5]).inq = 5 :: [] := ⟨inv_blocked _, rfl, rfl⟩

theorem witness_RunResultAgreesWithState :
    (load [99]).run 1 = some (.ok, stepped (load [99])) ∧ (load [3, 0]).run 1 = some (.ok, stepped (load [3, 0])) ∧
      (load [0]).run 1 = some (.fault (stepped (load [0])).flt, stepped (load [0])) := by decide

theorem witness_RunPopsFrontAndAppendsBack :
    (load [104, 1, 99]).wiring = .host ∧ ∃ t, (load [104, 1, 99]).run 2 = some (.ok, t) := ⟨rfl, _, rfl⟩

theorem witness_RunIsIteratedStep :
    (load [104, 1, 99]).wiring = .host ∧ ∃ t, (load [104, 1, 99]).run 2 = some (.ok, t) := ⟨rfl, _, rfl⟩

theorem inv_load_state (program : List Word) (h : program.length ≤ Config.unboundedCap) : (load program).Inv where
  engines := by simpa [State.stations, load, State.reset] using inv_load program h
  alone := fun _ => ⟨rfl, rfl⟩
  seeded := fun hw => Wiring.noConfusion hw
  done := fun hw => Wiring.noConfusion hw
  failed := fun hw => Wiring.noConfusion hw
  unbuilt := fun _ hw => Wiring.noConfusion hw

theorem inv_ring (program : List Word) (h : program.length ≤ Config.unboundedCap) : (ringOf program [] []).Inv where
  engines := by simpa [State.stations, ringOf, loadIn, load, State.reset] using inv_load program h
  alone := fun hw => Wiring.noConfusion hw
  seeded := by simp [State.stations, ringOf, loadIn, load, State.reset, Engine.reset]
  done := fun _ ho => RingStatus.noConfusion ho
  failed := fun _ ho => RingStatus.noConfusion ho
  unbuilt := fun _ hw => Wiring.noConfusion hw

theorem witness_StepKeepsInvariant :
    ((load [99]).Inv ∧ ∃ t, step (load [99]) = .next t) ∧ (ringOf [99] [] []).Inv ∧ ∃ t, step (ringOf [99] [] []) = .next t :=
  ⟨⟨inv_load_state _ (by decide), _, rfl⟩, inv_ring _ (by decide), _, rfl⟩

theorem witness_ConstructedMachinesMeetInvariant :
    (∀ c, some (2 ^ 63) = some c → c ≤ 2 ^ 63) ∧ (∃ e, Engine.new [99] (some (2 ^ 63)) = .ok e) ∧
      ∃ s, State.boot [99] (some (2 ^ 63)) [5] = .ok s :=
  ⟨fun c h => by cases h; decide, ⟨_, rfl⟩, _, rfl⟩

/-- A ring whose current engine is about to halt and whose other engine has the given status and an empty queue. -/
def pair (x : ExecState) : State :=
  { ringOf [99] [] [] with after := [{ toEngine := { (load [99]).toEngine with st := x }, inq := [] }] }

theorem witness_StoppedEnginesNeverChange :
    (∃ t, step (pair .halted) = .next t ∧ ∃ x, (pair .halted).stations[1]? = some x ∧ x.st = .halted) ∧
      ∃ t, step (pair .faulted) = .next t ∧ ∃ x, (pair .faulted).stations[1]? = some x ∧ x.st = .faulted :=
  ⟨⟨_, rfl, _, rfl, rfl⟩, _, rfl, _, rfl, rfl⟩

theorem witness_StepReachesOnlyItsStation :
    (∃ t, step (ringOf [104, 1] [] [[7], [8]]) = .next t) ∧ (ringOf [104, 1] [] [[7], [8]]).wiring = .ring ∧
      (1 : Nat) ≠ (ringOf [104, 1] [] [[7], [8]]).index ∧
      ((ringOf [104, 1] [] [[7], [8]]).stations.map (·.inq))[1]? = some [7] ∧
      (2 : Nat) ≠ ((ringOf [104, 1] [] [[7], [8]]).index + 1) % (ringOf [104, 1] [] [[7], [8]]).stations.length :=
  ⟨⟨_, rfl⟩, rfl, by decide, by decide, by decide⟩

theorem witness_NewLoadsTheProgram :
    ([1, 2, 3, 4, 5] : List Word).length ≤ (some 5).getD (2 ^ 63) ∧
      (some 5).getD (2 ^ 63) < ([1, 2, 3, 4, 5, 6] : List Word).length := by decide

theorem witness_OrchestrateSeedsTheRing :
    Engine.new [1, 2, 3, 4, 5, 6] (some 5) = .error (.memoryCapacityExceeded 5) ∧
      Engine.new [99] none = .ok (load [99]).toEngine := by decide

/-- The current engine goes on; it returns with another behind it; it is the last and another is not halted; all are halted. -/
theorem witness_RingOrderAndStopTest :
    (∃ u t, (ringOf [104, 1] [] [[]]).engineTurn = .next u ∧ step (ringOf [104, 1] [] [[]]) = .next t ∧ u.st = .ready) ∧
      (∃ u t, (pair .ready).engineTurn = .next u ∧ step (pair .ready) = .next t ∧ u.st = .halted ∧ (pair .ready).after ≠ []) ∧
      (∃ u t, { ringOf [99] [] [] with before := [(blocked []).toStation] }.engineTurn = .next u ∧
        step { ringOf [99] [] [] with before := [(blocked []).toStation] } = .next t ∧ u.st = .halted ∧
        ∃ x ∈ u.stations, x.st ≠ .halted) ∧
      ∃ u t, (ringOf [99] [] []).engineTurn = .next u ∧ step (ringOf [99] [] []) = .next t ∧ u.st = .halted ∧
        ∀ x ∈ u.stations, x.st = .halted :=
  ⟨⟨_, _, rfl, rfl, rfl⟩, ⟨_, _, rfl, rfl, rfl, by decide⟩,
    ⟨_, _, rfl, rfl, rfl, (blocked []).toStation, by decide, by decide⟩, _, _, rfl, rfl, rfl, by decide⟩

theorem witness_RingFaultStopsDrive :
    (ringOf [0] [] []).Inv ∧ (ringOf [0] [] []).wiring = .ring ∧ (ringOf [0] [] []).ost = .seeded ∧
      ∃ t, step (ringOf [0] [] []) = .next t ∧ t.ost = .failed := ⟨inv_ring _ (by decide), rfl, rfl, _, rfl, rfl⟩

/-- Two engines blocked on empty queues. -/
def stuck : State := { ringOf [3, 0, 99] [] [] with toStation := (blocked []).toStation, after := [(blocked []).toStation] }

theorem witness_StuckRingHangs :
    stuck.wiring = .ring ∧ stuck.ost = .seeded ∧
      (∀ x ∈ stuck.stations, x.st = .halted ∨ (x.st = .blockedOnInput ∧ x.inq = [])) ∧
      ∃ x ∈ stuck.stations, x.st ≠ .halted := ⟨rfl, rfl, by decide, (blocked []).toStation, by decide, by decide⟩

theorem witness_DriveIsIteratedStep :
    (∃ t, State.drive 1 1 (ringOf [99] [] [[]]) = some (.ok 0, t)) ∧
      (∃ r t, State.drive 1 1 (ringOf [0] [] [[]]) = some (.fault 0 r, t)) ∧ (ringOf [99] [] [[]]).wiring = .ring ∧
      (ringOf [99] [] [[]]).ost = .seeded := ⟨⟨_, rfl⟩, ⟨_, _, rfl⟩, rfl, rfl⟩

end Sys2Proof.Tests
end

section
/-!
PROOFS. The family 00_scope.md: the range of `Int64` as `chk64` uses it.
-/

namespace Sys2Proof

/-- The spec writes the bounds of `Int64` as powers of two (00_scope.md R3), the model as numerals. -/
theorem inRange_iff_pow_bounds {z : Int} : InRange z ↔ -2 ^ 63 ≤ z ∧ z ≤ 2 ^ 63 - 1 := by
  have hmin : (-2 ^ 63 : Int) = intMin := by decide
  have hmax : (2 ^ 63 - 1 : Int) = intMax := by decide
  rw [hmin, hmax]

theorem not_inRange_iff_pow_bounds {z : Int} : ¬ InRange z ↔ z < -2 ^ 63 ∨ 2 ^ 63 - 1 < z := by
  rw [inRange_iff_pow_bounds, not_and_or, not_le, not_le]

/-- Settles O4: the two ranges are `InRange` and its negation, the two cases of `chk64`. -/
theorem rangeCheckNeverWraps : Obligations.RangeCheckNeverWraps := fun _ =>
  ⟨fun h =>
      have hr := inRange_iff_pow_bounds.2 h
      ⟨Machine.chk64_ok hr, Word.toInt_ofZ hr⟩,
    fun h => Machine.chk64_error (not_inRange_iff_pow_bounds.2 h)⟩

end Sys2Proof
end

section
/-!
PROOFS. The family 20_memory.md: what `memRead` and `memWrite` answer once the address check has answered.
-/

namespace Sys2Proof.Machine

theorem memWrite_error_iff {e : Engine} {z : Int} {v : Word} {f : FaultInfo} :
    memWrite e z v = .error f ↔ addrCheck e z = .error f := by
  simp [memWrite, bind_error_iff]

theorem memRead_of_addrCheck_ok {e : Engine} {z : Int} {a : Nat} (h : addrCheck e z = .ok a) :
    memRead e z = .ok (e.mem.read a) := by
  obtain ⟨h0, hcap, rfl⟩ := addrCheck_ok_iff.1 h
  exact memRead_ok_iff.2 ⟨h0, hcap, rfl⟩

theorem memWrite_of_addrCheck_ok {e : Engine} {z : Int} {a : Nat} (v : Word) (h : addrCheck e z = .ok a) :
    memWrite e z v = .ok (e.mem.write a v) := by
  obtain ⟨h0, hcap, rfl⟩ := addrCheck_ok_iff.1 h
  exact memWrite_ok_iff.2 ⟨h0, hcap, rfl⟩

/-- The cells a write adds below its address read 0 (20_memory.md R32): they lay past the old extent. -/
theorem Memory.read_write_gap (m : Memory) {a b : Nat} (v : Word) (hext : m.extent ≤ b) (hlt : b < a) :
    (m.write a v).read b = 0 := by
  rw [Memory.read_write_of_ne m v hlt.ne, Memory.read_of_ge hext]

end Sys2Proof.Machine

namespace Sys2Proof

open Machine

/-- Settles O1: past the address check a read is `Memory.read`, whose two cases are the two sides of the extent. -/
theorem readPastExtentIsZero : Obligations.ReadPastExtentIsZero := by
  intro e z
  refine ⟨fun f h => memRead_error_iff.2 h, fun a h => ?_⟩
  rw [memRead_of_addrCheck_ok h]
  split
  case isTrue hlt => rw [Memory.read_of_lt hlt]
  case isFalse hge => rw [Memory.read_of_ge (Nat.le_of_not_lt hge)]

/-- Settles O2: past the address check the memory written is `Memory.write`, and a resolved destination has passed the check. -/
theorem writeChangesOneCell : Obligations.WriteChangesOneCell := by
  intro e v
  refine ⟨fun z f h => memWrite_error_iff.2 h, fun z a h => ?_, fun k m a h => ⟨_, memWrite_of_resolved v h⟩⟩
  exact ⟨e.mem.write a v, memWrite_of_addrCheck_ok v h,
    Memory.read_write_self e.mem a v,
    fun _ hne => Memory.read_write_of_ne e.mem v hne,
    fun _ hext hlt => Memory.read_write_gap e.mem v hext hlt,
    Memory.write_extent e.mem a v⟩

end Sys2Proof
end

section
/-!
PROOFS. The family 30_encoding.md, the addressing resolver: what the slot read answers, then what each mode makes of its answer.
-/

namespace Sys2Proof.Machine

variable {e : Engine} {k : Nat} {m : Mode} {p : Word} {f : FaultInfo}

/-! ## The slot and the Relative address -/

theorem readSlot_of_inRange (h : InRange ((e.ip : Int) + k)) : readSlot e k = memRead e ((e.ip : Int) + k) := by
  rw [readSlot, chk64_ok h, ok_bind]

theorem readSlot_of_not_inRange (h : ¬ InRange ((e.ip : Int) + k)) :
    readSlot e k = .error (.arithmeticOverflow ((e.ip : Int) + k)) := by
  rw [readSlot, chk64_error h, error_bind]

theorem relativeAddr_of_inRange (h : InRange (e.rb.toInt + p.toInt)) : relativeAddr e p = .ok (e.rb.toInt + p.toInt) :=
  chk64_ok h

theorem relativeAddr_of_not_inRange (h : ¬ InRange (e.rb.toInt + p.toInt)) :
    relativeAddr e p = .error (.arithmeticOverflow (e.rb.toInt + p.toInt)) :=
  chk64_error h

/-! ## `resolve_value` after the slot read (30_encoding.md R58) -/

theorem resolveValue_of_readSlot_error (m : Mode) (h : readSlot e k = .error f) : resolveValue e k m = .error f := by
  rw [resolveValue, h, error_bind]

theorem resolveValue_immediate (h : readSlot e k = .ok p) : resolveValue e k .immediate = .ok p := by
  rw [resolveValue, h, ok_bind]

theorem resolveValue_position (h : readSlot e k = .ok p) : resolveValue e k .position = memRead e p.toInt := by
  rw [resolveValue, h, ok_bind]

theorem resolveValue_relative (h : readSlot e k = .ok p) :
    resolveValue e k .relative = relativeAddr e p >>= fun a => memRead e a := by
  rw [resolveValue, h, ok_bind]

/-! ## `resolve_destination` after the slot read (30_encoding.md R59) -/

theorem resolveDestination_of_readSlot_error (hm : m ≠ .immediate) (h : readSlot e k = .error f) :
    resolveDestination e k m = .error f := by
  rw [resolveDestination, checkDestination_of_ne hm, ok_bind, h, error_bind]

theorem resolveDestination_position (h : readSlot e k = .ok p) :
    resolveDestination e k .position = addrCheck e p.toInt := by
  rw [resolveDestination, checkDestination_of_ne (by decide), ok_bind, h, ok_bind]

theorem resolveDestination_relative (h : readSlot e k = .ok p) :
    resolveDestination e k .relative = relativeAddr e p >>= fun a => addrCheck e a := by
  rw [resolveDestination, checkDestination_of_ne (by decide), ok_bind, h, ok_bind]

end Sys2Proof.Machine

namespace Sys2Proof

open Machine

/-- Settles O6: the slot's address is in range or not, its read answers a word or a fault, and for Relative `rb + p` is in
range or not. -/
theorem resolveValueByMode : Obligations.ResolveValueByMode := by
  intro e k
  refine ⟨fun hip m => ?slotOverflow, fun hip m f hf => ?slotFault, fun hip p hp => ?slotRead⟩
  case slotOverflow => exact resolveValue_of_readSlot_error m (readSlot_of_not_inRange hip)
  case slotFault => exact resolveValue_of_readSlot_error m ((readSlot_of_inRange hip).trans hf)
  case slotRead =>
    have hslot : readSlot e k = .ok p := (readSlot_of_inRange hip).trans hp
    refine ⟨resolveValue_immediate hslot, resolveValue_position hslot, fun hrb => ?_, fun hrb => ?_⟩
    · rw [resolveValue_relative hslot, relativeAddr_of_inRange hrb, ok_bind]
    · rw [resolveValue_relative hslot, relativeAddr_of_not_inRange hrb, error_bind]

/-- Settles O7: Immediate is refused before the slot is read; the other modes split as in O6, with the address check of the
resolved address in place of its read. -/
theorem resolveDestinationByMode : Obligations.ResolveDestinationByMode := by
  intro e k
  refine ⟨resolveDestination_immediate e k, fun hip m hm => ?slotOverflow, fun hip m f hm hf => ?slotFault,
    fun hip p hp => ?slotRead⟩
  case slotOverflow => exact resolveDestination_of_readSlot_error hm (readSlot_of_not_inRange hip)
  case slotFault => exact resolveDestination_of_readSlot_error hm ((readSlot_of_inRange hip).trans hf)
  case slotRead =>
    have hslot : readSlot e k = .ok p := (readSlot_of_inRange hip).trans hp
    refine ⟨resolveDestination_position hslot, fun hrb => ?_, fun hrb => ?_⟩
    · rw [resolveDestination_relative hslot, relativeAddr_of_inRange hrb, ok_bind]
    · rw [resolveDestination_relative hslot, relativeAddr_of_not_inRange hrb, error_bind]

end Sys2Proof
end

section
/-!
PROOFS. The family 44_engine_run.md: `run` on an engine it leaves as it is, and the step that re-tries a pending Input.
-/

namespace Sys2Proof.Machine

/-! ## `run` by the execution state -/

theorem State.run_of_halted {s : State} (fuel : Nat) (h : s.st = .halted) : s.run fuel = some (.ok, s) := by
  simp only [State.run, h]

theorem State.run_of_blocked_nil {s : State} (fuel : Nat) (h : s.st = .blockedOnInput) (hq : s.inq = []) :
    s.run fuel = some (.ok, s) := by
  simp only [State.run, h, hq, if_true]

/-! ## The step at a pending Input -/

theorem State.setSt_eq_self {s : State} {x : ExecState} (h : s.st = x) : s.setSt x = s := by
  subst h
  rfl

theorem fetchExec_of_fetchDecode {s : State} {i : Instr} (h : fetchDecode s.toEngine = .ok i) : fetchExec s = exec i s := by
  simp only [fetchExec, h]

/-- Re-trying a pending Input on an empty queue writes BlockedOnInput to `st` and nothing else (41_io.md R80). -/
theorem fetchExec_of_pendingInput_nil {s : State} (hp : s.toEngine.PendingInput) (hq : s.inq = []) :
    fetchExec s = .next (s.setSt .blockedOnInput) := by
  obtain ⟨m1, dest, n, hdecode, hdest, hnext⟩ := hp
  obtain ⟨-, hip⟩ := nextIp_ok_iff.1 hnext
  have heffect : effect (.input m1) s = .ok (s.setSt .blockedOnInput) := input_eq_blocked hdest hip hq
  rw [fetchExec_of_fetchDecode hdecode, exec_of_effect_ok heffect]

end Sys2Proof.Machine

namespace Sys2Proof

open Machine

/-- Settles O41: `run` looks at `st` before its loop, so the fuel plays no part. -/
theorem runOnHaltedDoesNothing : Obligations.RunOnHaltedDoesNothing :=
  fun fuel _ hst => State.run_of_halted fuel hst

/-- Settles O42: by the invariant the word at `ip` is an Input that meets no fault, so re-trying it only blocks an engine that
is blocked. -/
theorem runOnBlockedWithoutInputDoesNothing : Obligations.RunOnBlockedWithoutInputDoesNothing := by
  intro fuel s hst hq
  refine ⟨State.run_of_blocked_nil fuel hst hq, fun hinv => ?_⟩
  rw [fetchExec_of_pendingInput_nil (hinv.blocked hst) hq, State.setSt_eq_self hst]

end Sys2Proof
end

section
/-!
PROOFS. The family 60_exceptions.md: an Immediate destination by the digits of the decoded word, and the fault an instruction
takes for it.
-/

namespace Sys2Proof

/-! ## The destination's mode digit -/

theorem Mode.toDigit_eq_one_iff {m : Mode} : m.toDigit = 1 ↔ m = .immediate :=
  ⟨fun h => Mode.toDigit_inj h, fun h => h ▸ rfl⟩

/-- A decoded instruction's modes are the word's digits from 10^2 up (30_encoding.md R51, R52). -/
theorem digit_of_decode {w : Word} {i : Instr} {j : Nat} {m : Mode} (h : decode w = .ok i) (hm : i.modes[j]? = some m) :
    digit w.toInt.toNat (j + 2) = m.toDigit := by
  unfold decode at h
  split at h
  · cases h
  · obtain ⟨build, m1, m2, m3, hbuild, h1, h2, h3, rfl⟩ := decodeNat_ok h
    have hj : [m1, m2, m3][j]? = some m := (instrForm_some hbuild m1 m2 m3).2 j m hm
    match j, hj with
    | 0, rfl => exact modeOf_ok_iff.1 h1
    | 1, rfl => exact modeOf_ok_iff.1 h2
    | 2, rfl => exact modeOf_ok_iff.1 h3

theorem digit_eq_one_iff_of_decode {w : Word} {i : Instr} {j : Nat} {m : Mode} (h : decode w = .ok i)
    (hm : i.modes[j]? = some m) : digit w.toInt.toNat (j + 2) = 1 ↔ m = .immediate := by
  rw [digit_of_decode h hm, Mode.toDigit_eq_one_iff]

/-- Which parameter is the destination, by opcode (the `d` roles of 30_encoding.md R56). -/
theorem Instr.destination_cases (i : Instr) :
    (i.opcode ∈ [1, 2, 7, 8] ∧ ∃ m3, i.modes[2]? = some m3 ∧ i.destination = some (3, m3)) ∨
      (i.opcode = 3 ∧ ∃ m1, i.modes[0]? = some m1 ∧ i.destination = some (1, m1)) ∨
      (i.opcode ∉ [1, 2, 7, 8] ∧ i.opcode ≠ 3 ∧ i.destination = none) := by
  cases i <;> simp [Instr.opcode, Instr.modes, Instr.destination]

/-- An Immediate destination, read off the decoded word (60_exceptions.md R154). -/
theorem destination_immediate_iff {w : Word} {i : Instr} {k : Nat} (h : decode w = .ok i) :
    i.destination = some (k, .immediate) ↔
      (i.opcode ∈ [1, 2, 7, 8] ∧ digit w.toInt.toNat 4 = 1 ∧ k = 3) ∨
        (i.opcode = 3 ∧ digit w.toInt.toNat 2 = 1 ∧ k = 1) := by
  rcases i.destination_cases with ⟨hop, m3, hm, hd⟩ | ⟨hop, m1, hm, hd⟩ | ⟨halu, hinput, hd⟩
  · have hne : i.opcode ≠ 3 := fun h3 => absurd (h3 ▸ hop) (by decide)
    rw [hd, digit_eq_one_iff_of_decode h hm]
    simp [hop, hne, and_comm, eq_comm]
  · rw [hd, digit_eq_one_iff_of_decode h hm]
    simp [hop, and_comm, eq_comm]
  · simp [hd, halu, hinput]

end Sys2Proof

namespace Sys2Proof.Machine

/-! ## The fault taken -/

theorem State.takeFault_inj {s : State} {f g : FaultInfo} (h : s.takeFault f = s.takeFault g) : f = g := by
  have hflt : (s.takeFault f).flt = (s.takeFault g).flt := by rw [h]
  simpa using hflt

theorem OperandFault.ne_invalidDestinationMode {e : Engine} {f : FaultInfo} {k : Nat} (h : OperandFault e f) :
    f ≠ .invalidDestinationMode k := by
  obtain ⟨z, rfl⟩ | ⟨z, rfl⟩ | ⟨a, rfl, -⟩ := h <;> simp

/-- An instruction that meets no fault does not leave the engine Faulted. -/
theorem effect_ok_st_ne_faulted {i : Instr} {s t : State} (h : effect i s = .ok t) : t.st ≠ .faulted := by
  obtain ⟨-, ⟨hst, -⟩ | ⟨hst, -⟩ | ⟨-, -, rfl⟩⟩ := effect_ok_st h <;> simp_all

theorem exec_takes_invalidDestinationMode_iff {i : Instr} {s : State} {k : Nat} :
    exec i s = .next (s.takeFault (.invalidDestinationMode k)) ↔ i.destination = some (k, .immediate) := by
  refine ⟨fun h => ?_, fun hd => exec_of_effect_error (effect_of_immediate s hd)⟩
  rcases exec_next h with hok | ⟨f, herror, hf⟩
  · exact absurd (State.takeFault_st s _) (effect_ok_st_ne_faulted hok)
  · cases State.takeFault_inj hf
    rcases effect_error herror with ⟨j, hd, hj⟩ | ⟨-, hoperand⟩
    · cases hj
      exact hd
    · exact absurd rfl hoperand.ne_invalidDestinationMode

/-- InvalidDestinationMode by the word at `ip` (60_exceptions.md R154). -/
theorem fetchExec_takes_invalidDestinationMode_iff {s : State} {w : Word} {i : Instr} {k : Nat}
    (hw : memRead s.toEngine s.ip = .ok w) (hi : decode w = .ok i) :
    fetchExec s = .next (s.takeFault (.invalidDestinationMode k)) ↔
      (i.opcode ∈ [1, 2, 7, 8] ∧ digit w.toInt.toNat 4 = 1 ∧ k = 3) ∨
        (i.opcode = 3 ∧ digit w.toInt.toNat 2 = 1 ∧ k = 1) := by
  rw [fetchExec_of_fetchDecode (fetchDecode_of hw hi), exec_takes_invalidDestinationMode_iff, destination_immediate_iff hi]

end Sys2Proof.Machine

namespace Sys2Proof

open Machine

/-- Settles O29: an instruction takes the fault just when its destination is Immediate, which the word's digit decides. -/
theorem invalidDestinationModeAtDispatch : Obligations.InvalidDestinationModeAtDispatch := by
  intro s w i hw hi
  refine ⟨fun hop hdigit => ?alu, fun hop hdigit => ?input, fun halu hinput t k ht hfault => ?other⟩
  case alu => exact (fetchExec_takes_invalidDestinationMode_iff hw hi).2 (.inl ⟨hop, hdigit, rfl⟩)
  case input => exact (fetchExec_takes_invalidDestinationMode_iff hw hi).2 (.inr ⟨hop, hdigit, rfl⟩)
  case other =>
    subst hfault
    rcases (fetchExec_takes_invalidDestinationMode_iff hw hi).1 ht with ⟨hop, hdigit, -⟩ | ⟨hop, hdigit, -⟩
    · exact halu ⟨hop, hdigit⟩
    · exact hinput ⟨hop, hdigit⟩

end Sys2Proof
end

section
/-!
PROOFS. The family 'other', decoding (30_encoding.md sections 1, 2 and 5): the decoder as digits, the encoder's words, refusals.
-/

namespace Sys2Proof

/-! ## What the decoder accepts -/

theorem decode_of_nonneg {w : Word} (h : 0 ≤ w.toInt) : decode w = decodeNat w w.toInt.toNat := if_neg (not_lt.2 h)

theorem decode_of_neg {w : Word} (h : w.toInt < 0) : decode w = .error (.invalidOpcode w) := if_pos h

theorem decodeNat_of_modes {w : Word} {n : Nat} {build : Mode → Mode → Mode → Instr} {m1 m2 m3 : Mode}
    (hbuild : instrForm (n % 100) = some build) (h1 : modeOf n 1 = .ok m1) (h2 : modeOf n 2 = .ok m2)
    (h3 : modeOf n 3 = .ok m3) : decodeNat w n = .ok (build m1 m2 m3) := by
  simp only [decodeNat, hbuild, h1, h2, h3, bind, Except.bind]

theorem exists_modeOf_ok {n k : Nat} (h : digit n (k + 1) ≤ 2) : ∃ m, modeOf n k = .ok m := by
  obtain ⟨m, hm⟩ := Mode.exists_of_le h
  exact ⟨m, modeOf_ok_iff.2 hm⟩

theorem digit_le_of_modeOf_ok {n k : Nat} {m : Mode} (h : modeOf n k = .ok m) : digit n (k + 1) ≤ 2 :=
  (modeOf_ok_iff.1 h).trans_le m.toDigit_le

/-- What a decoded word's value, opcode and digits are (30_encoding.md R52 to R54). -/
theorem digits_of_decode {w : Word} {i : Instr} (h : decode w = .ok i) :
    0 ≤ w.toInt ∧ w.toInt.toNat % 100 = i.opcode ∧ ∀ k, 1 ≤ k → k ≤ 3 → digit w.toInt.toNat (k + 1) ≤ 2 := by
  rcases lt_or_ge w.toInt 0 with hneg | hpos
  · rw [decode_of_neg hneg] at h
    cases h
  · rw [decode_of_nonneg hpos] at h
    obtain ⟨build, m1, m2, m3, hbuild, h1, h2, h3, rfl⟩ := decodeNat_ok h
    refine ⟨hpos, (instrForm_some hbuild m1 m2 m3).1, fun k hk1 hk3 => ?_⟩
    obtain rfl | rfl | rfl : k = 1 ∨ k = 2 ∨ k = 3 := by omega
    · exact digit_le_of_modeOf_ok h1
    · exact digit_le_of_modeOf_ok h2
    · exact digit_le_of_modeOf_ok h3

/-- A word with the opcode of `i`, three legal mode digits, and those of `i`'s parameters, decodes to `i`. -/
theorem decode_of_digits {w : Word} {i : Instr} (hpos : 0 ≤ w.toInt) (hop : w.toInt.toNat % 100 = i.opcode)
    (hlegal : ∀ k, 1 ≤ k → k ≤ 3 → digit w.toInt.toNat (k + 1) ≤ 2)
    (hmodes : ∀ j m, i.modes[j]? = some m → digit w.toInt.toNat (j + 2) = m.toDigit) : decode w = .ok i := by
  obtain ⟨build, hbuild, hi⟩ := instrForm_opcode i
  obtain ⟨m1, h1⟩ := exists_modeOf_ok (hlegal 1 (by decide) (by decide))
  obtain ⟨m2, h2⟩ := exists_modeOf_ok (hlegal 2 (by decide) (by decide))
  obtain ⟨m3, h3⟩ := exists_modeOf_ok (hlegal 3 (by decide) (by decide))
  rw [decode_of_nonneg hpos, decodeNat_of_modes (hop ▸ hbuild) h1 h2 h3, hi]
  intro j m hm
  have hj : j < 3 := (List.getElem?_eq_some_iff.1 hm).1.trans_le i.modes_length_le
  have hdigit := hmodes j m hm
  match j, hj with
  | 0, _ => exact congrArg some (Mode.toDigit_inj ((modeOf_ok_iff.1 h1).symm.trans hdigit))
  | 1, _ => exact congrArg some (Mode.toDigit_inj ((modeOf_ok_iff.1 h2).symm.trans hdigit))
  | 2, _ => exact congrArg some (Mode.toDigit_inj ((modeOf_ok_iff.1 h3).symm.trans hdigit))

/-- Settles O8: one direction reads the digits off a decoding, the other rebuilds the decoding from them. -/
theorem decodeReadsTheDigits : Obligations.DecodeReadsTheDigits := by
  intro w i
  constructor
  · intro h
    obtain ⟨hpos, hop, hlegal⟩ := digits_of_decode h
    exact ⟨hpos, hop, hlegal, fun _ _ hm => digit_of_decode h hm⟩
  · rintro ⟨hpos, hop, hlegal, hmodes⟩
    exact decode_of_digits hpos hop hlegal hmodes

/-! ## Decode of encode -/

theorem encode_pattern (i : Instr) : Laws.EncodePattern.Statement i := by
  cases i with
  | add m1 m2 m3 => exact Laws.EncodePattern.add m1 m2 m3
  | mul m1 m2 m3 => exact Laws.EncodePattern.mul m1 m2 m3
  | input m1 => exact Laws.EncodePattern.input m1
  | output m1 => exact Laws.EncodePattern.output m1
  | jumpIfTrue m1 m2 => exact Laws.EncodePattern.jumpIfTrue m1 m2
  | jumpIfFalse m1 m2 => exact Laws.EncodePattern.jumpIfFalse m1 m2
  | lessThan m1 m2 m3 => exact Laws.EncodePattern.lessThan m1 m2 m3
  | equals m1 m2 m3 => exact Laws.EncodePattern.equals m1 m2 m3
  | adjustRelativeBase m1 => exact Laws.EncodePattern.adjustRelativeBase m1
  | halt => exact Laws.EncodePattern.halt

theorem digit_encode_of_mode {i : Instr} {j : Nat} {m : Mode} (h : i.modes[j]? = some m) :
    digit (encode i).toInt.toNat (j + 2) = m.toDigit := by
  obtain ⟨-, -, hdigits⟩ := encode_pattern i
  rw [hdigits j]
  simp [h]

/-- An encoded word has no illegal mode digit: a parameter's digit is its mode's, an absent parameter's is 0. -/
theorem digit_encode_le (i : Instr) (j : Nat) : digit (encode i).toInt.toNat (j + 2) ≤ 2 := by
  cases hm : i.modes[j]? with
  | some m => exact (digit_encode_of_mode hm).trans_le m.toDigit_le
  | none =>
    obtain ⟨-, -, hdigits⟩ := encode_pattern i
    rw [hdigits j]
    simp [hm]

/-- Settles O9: the word of `i` has the digits by which the decoder accepts `i`. -/
theorem decodeOfEncode : Obligations.DecodeOfEncode := by
  intro i
  obtain ⟨hpos, hop, -⟩ := encode_pattern i
  refine decode_of_digits hpos hop (fun k hk _ => ?_) fun j m hm => digit_encode_of_mode hm
  obtain ⟨j, rfl⟩ := Nat.exists_eq_add_of_le' hk
  exact digit_encode_le i j

/-! ## What the decoder refuses -/

theorem instrForm_eq_none {c : Nat} (h : c ∉ [1, 2, 3, 4, 5, 6, 7, 8, 9, 99]) : instrForm c = none := by
  cases hf : instrForm c with
  | none => rfl
  | some build =>
    obtain ⟨hc, -⟩ := instrForm_some hf .position .position .position
    exact absurd (hc ▸ Instr.opcode_mem _) h

theorem exists_instrForm {c : Nat} (h : c ∈ [1, 2, 3, 4, 5, 6, 7, 8, 9, 99]) : ∃ build, instrForm c = some build := by
  simp only [List.mem_cons, List.not_mem_nil, or_false] at h
  rcases h with rfl | rfl | rfl | rfl | rfl | rfl | rfl | rfl | rfl | rfl <;> exact ⟨_, rfl⟩

theorem decodeNat_of_opcode {w : Word} {n : Nat} (h : n % 100 ∉ [1, 2, 3, 4, 5, 6, 7, 8, 9, 99]) :
    decodeNat w n = .error (.invalidOpcode w) := by
  simp only [decodeNat, instrForm_eq_none h]

/-- The lowest parameter whose mode digit is above 2 is the one refused (30_encoding.md R55). -/
theorem decodeNat_of_digit {w : Word} {n k : Nat} (hop : n % 100 ∈ [1, 2, 3, 4, 5, 6, 7, 8, 9, 99]) (hk1 : 1 ≤ k) (hk3 : k ≤ 3)
    (hbad : 2 < digit n (k + 1)) (hlow : ∀ j, 1 ≤ j → j < k → digit n (j + 1) ≤ 2) :
    decodeNat w n = .error (.invalidParameterMode k (digit n (k + 1))) := by
  obtain ⟨build, hbuild⟩ := exists_instrForm hop
  have herror := modeOf_error hbad
  obtain rfl | rfl | rfl : k = 1 ∨ k = 2 ∨ k = 3 := by omega
  · simp only [decodeNat, hbuild, herror, bind, Except.bind]
  · obtain ⟨m1, h1⟩ := exists_modeOf_ok (hlow 1 (by decide) (by decide))
    simp only [decodeNat, hbuild, h1, herror, bind, Except.bind]
  · obtain ⟨m1, h1⟩ := exists_modeOf_ok (hlow 1 (by decide) (by decide))
    obtain ⟨m2, h2⟩ := exists_modeOf_ok (hlow 2 (by decide) (by decide))
    simp only [decodeNat, hbuild, h1, h2, herror, bind, Except.bind]

/-- Settles O10: the sign is looked at first, then the opcode, then the digits from the lowest. -/
theorem decodeRefusals : Obligations.DecodeRefusals := by
  intro w
  refine ⟨decode_of_neg, fun hpos hop => ?opcode, fun hpos hop k hk1 hk3 hbad hlow => ?digit⟩
  case opcode => rw [decode_of_nonneg hpos, decodeNat_of_opcode hop]
  case digit => rw [decode_of_nonneg hpos, decodeNat_of_digit hop hk1 hk3 hbad hlow]

/-- Settles O11: each of the nine words is evaluated. -/
theorem specWordsDecode : Obligations.SpecWordsDecode := by
  refine ⟨?_, ?_, ?_, ?_, ?_, ?_, ?_, ?_, ?_⟩ <;> decide

end Sys2Proof
end

section
/-!
PROOFS. The family 'other', address checks (20_memory.md section 1): `AddrCheck` by ranges, and `CAP` with and without a capacity.
-/

namespace Sys2Proof.Machine

theorem addrCheck_of_neg {e : Engine} {z : Int} (h : z < 0) : addrCheck e z = .error (.negativeAddress z) := if_pos h

theorem addrCheck_of_cap_le {e : Engine} {z : Int} (hpos : 0 ≤ z) (hcap : (e.cap : Int) ≤ z) :
    addrCheck e z = .error (.memoryCapacityExceeded z.toNat) := by
  rw [addrCheck, if_neg (by omega), if_pos (by omega)]

theorem Engine.cap_of_none {e : Engine} (h : e.memCapacity = none) : e.cap = Config.unboundedCap := by
  simp [Engine.cap, h]

theorem Engine.cap_of_some {e : Engine} {c : Nat} (h : e.memCapacity = some c) : e.cap = c := by
  simp [Engine.cap, h]

end Sys2Proof.Machine

namespace Sys2Proof

open Machine

/-- Settles O3: the three ranges are the three branches of `AddrCheck`. -/
theorem addressCheckRanges : Obligations.AddressCheckRanges := fun _ _ =>
  ⟨addrCheck_of_neg, addrCheck_of_cap_le, fun hpos hcap => addrCheck_ok_iff.2 ⟨hpos, hcap, rfl⟩,
    Engine.cap_of_none, fun _ => Engine.cap_of_some⟩

end Sys2Proof
end

section
/-!
PROOFS. The family 'other', each instruction completes (40 to 43): what `exec` answers once every check has passed.
-/

namespace Sys2Proof.Machine

variable {s : State} {m1 m2 m3 : Mode} {a b r : Word} {dest : Nat}

/-! ## The results -/

theorem lessThanResult_eq (a b : Word) : lessThanResult a b = .ok (if a.toInt < b.toInt then 1 else 0) := by
  simp [lessThanResult, truth]

theorem equalsResult_eq (a b : Word) : equalsResult a b = .ok (if a = b then 1 else 0) := by
  simp [equalsResult, truth, Word.eq_iff_toInt]

theorem sumResult_eq (h : InRange (a.toInt + b.toInt)) : sumResult a b = .ok (Word.ofZ (a.toInt + b.toInt)) :=
  sumResult_ok_iff.2 ⟨h, rfl⟩

theorem productResult_eq (h : InRange (a.toInt * b.toInt)) : productResult a b = .ok (Word.ofZ (a.toInt * b.toInt)) :=
  productResult_ok_iff.2 ⟨h, rfl⟩

/-! ## The completed step of each family -/

/-- The shared completion of Add, Mul, LessThan and Equals (40_arith_compare.md R70). -/
theorem exec_of_alu {i : Instr} {g : Word → Word → Except FaultInfo Word} (hi : effect i s = alu g m1 m2 m3 s)
    (ha : resolveValue s.toEngine 1 m1 = .ok a) (hb : resolveValue s.toEngine 2 m2 = .ok b)
    (hdest : resolveDestination s.toEngine 3 m3 = .ok dest) (hr : g a b = .ok r) (hip : (s.ip : Int) + 4 ≤ intMax) :
    exec i s = .next { s with mem := s.mem.write dest r, ip := s.ip + 4, st := .ready } :=
  exec_of_effect_ok (hi.trans (alu_eq ha hb hdest hr hip))

theorem exec_input_cons {v : Word} {rest : List Word} (hdest : resolveDestination s.toEngine 1 m1 = .ok dest)
    (hq : s.inq = v :: rest) (hip : (s.ip : Int) + 2 ≤ intMax) :
    exec (.input m1) s = .next { s with mem := s.mem.write dest v, inq := rest, ip := s.ip + 2, st := .ready } :=
  exec_of_effect_ok (i := .input m1) (input_eq_popped hdest hip hq)

theorem exec_input_nil (hdest : resolveDestination s.toEngine 1 m1 = .ok dest) (hq : s.inq = [])
    (hip : (s.ip : Int) + 2 ≤ intMax) : exec (.input m1) s = .next (s.setSt .blockedOnInput) :=
  exec_of_effect_ok (i := .input m1) (input_eq_blocked hdest hip hq)

theorem exec_output (ha : resolveValue s.toEngine 1 m1 = .ok a) (hip : (s.ip : Int) + 2 ≤ intMax) :
    exec (.output m1) s = .next (((s.pushOut a).setIp (s.ip + 2)).setSt .ready) :=
  exec_of_effect_ok (i := .output m1) (output_eq ha hip)

/-- A conditional jump with both parameters resolved goes where `jumpNext` says (42_jumps.md R90, R91). -/
theorem jump_of_values {taken : Word → Bool} (ha : resolveValue s.toEngine 1 m1 = .ok a)
    (hb : resolveValue s.toEngine 2 m2 = .ok b) :
    jump taken m1 m2 s = jumpNext s.toEngine (taken a) b >>= fun n => .ok ((s.setIp n).setSt .ready) := by
  rw [jump, ha, ok_bind, hb, ok_bind]

theorem jumpIfTrue_taken_iff : decide (a.toInt ≠ 0) = true ↔ a ≠ 0 := by
  simp [Word.eq_zero_iff]

theorem jumpIfFalse_taken_iff : decide (a.toInt = 0) = true ↔ a = 0 := by
  simp [Word.eq_zero_iff]

theorem exec_of_jump_taken {i : Instr} {taken : Word → Bool} (hi : effect i s = jump taken m1 m2 s)
    (ha : resolveValue s.toEngine 1 m1 = .ok a) (hb : resolveValue s.toEngine 2 m2 = .ok b) (htaken : taken a = true)
    (htarget : 0 ≤ b.toInt) : exec i s = .next { s with ip := b.toInt.toNat, st := .ready } := by
  refine exec_of_effect_ok (hi.trans ?_)
  rw [jump_of_values ha hb, jumpNext, if_pos htaken, jumpTarget_ok_iff.2 ⟨htarget, rfl⟩, ok_bind]
  rfl

theorem exec_of_jump_not_taken {i : Instr} {taken : Word → Bool} (hi : effect i s = jump taken m1 m2 s)
    (ha : resolveValue s.toEngine 1 m1 = .ok a) (hb : resolveValue s.toEngine 2 m2 = .ok b) (htaken : ¬ taken a = true)
    (hip : (s.ip : Int) + 3 ≤ intMax) : exec i s = .next { s with ip := s.ip + 3, st := .ready } := by
  refine exec_of_effect_ok (hi.trans ?_)
  rw [jump_of_values ha hb, jumpNext, if_neg htaken, nextIp_ok hip, ok_bind]
  rfl

theorem exec_adjustRelativeBase (ha : resolveValue s.toEngine 1 m1 = .ok a) (hr : InRange (s.rb.toInt + a.toInt))
    (hip : (s.ip : Int) + 2 ≤ intMax) :
    exec (.adjustRelativeBase m1) s =
      .next { s with rb := Word.ofZ (s.rb.toInt + a.toInt), ip := s.ip + 2, st := .ready } := by
  refine exec_of_effect_ok (i := .adjustRelativeBase m1) ?_
  simp only [effect, adjustRelativeBase, ha, chk64_ok hr, nextIp_ok hip, ok_bind]
  rfl

theorem exec_halt (hip : (s.ip : Int) + 1 ≤ intMax) : exec .halt s = .next { s with ip := s.ip + 1, st := .halted } := by
  refine exec_of_effect_ok (i := .halt) ?_
  simp only [effect, halt, nextIp_ok hip, ok_bind]
  rfl

end Sys2Proof.Machine

namespace Sys2Proof

open Machine

/-- Settles O14: the sum is in range, so the word stored is the sum. -/
theorem addCompletes : Obligations.AddCompletes := by
  intro s m1 m2 m3 a b dest ha hb hdest hrange hip
  refine ⟨_, exec_of_alu rfl ha hb hdest (sumResult_eq hrange) hip, ?_, rfl⟩
  rw [Memory.read_write_self, Word.toInt_ofZ hrange]

/-- Settles O15: the product is in range, so the word stored is the product. -/
theorem mulCompletes : Obligations.MulCompletes := by
  intro s m1 m2 m3 a b dest ha hb hdest hrange hip
  refine ⟨_, exec_of_alu rfl ha hb hdest (productResult_eq hrange) hip, ?_, rfl⟩
  rw [Memory.read_write_self, Word.toInt_ofZ hrange]

/-- Settles O16: a comparison has a result for every pair of values. -/
theorem lessThanCompletes : Obligations.LessThanCompletes := fun s _ _ _ a b _ ha hb hdest hip =>
  ⟨_, exec_of_alu rfl ha hb hdest (lessThanResult_eq a b) hip, Memory.read_write_self s.mem _ _, rfl⟩

/-- Settles O17: words are equal just when their integers are. -/
theorem equalsCompletes : Obligations.EqualsCompletes := fun s _ _ _ a b _ ha hb hdest hip =>
  ⟨_, exec_of_alu rfl ha hb hdest (equalsResult_eq a b) hip, Memory.read_write_self s.mem _ _, rfl⟩

/-- Settles O18: with a value at the front of the queue Input pops and stores it. -/
theorem inputCompletes : Obligations.InputCompletes := fun s _ _ _ _ hdest hq hip =>
  ⟨_, exec_input_cons hdest hq hip, Memory.read_write_self s.mem _ _, rfl⟩

/-- Settles O19: with an empty queue Input only sets `st`. -/
theorem inputSuspends : Obligations.InputSuspends := fun _ _ _ hdest hq hip => exec_input_nil hdest hq hip

/-- Settles O20: with a host the value goes on `outq`. -/
theorem outputCompletesForHost : Obligations.OutputCompletesForHost := by
  intro s m1 a ha hip hhost
  rw [exec_output ha hip, State.pushOut_host s a hhost]
  rfl

/-- Settles O22: JumpIfTrue is the jump taken on a value that is not 0. -/
theorem jumpIfTrueCompletes : Obligations.JumpIfTrueCompletes := by
  intro s m1 m2 a b ha hb
  exact ⟨fun ha0 => exec_of_jump_taken rfl ha hb (jumpIfTrue_taken_iff.2 ha0),
    fun ha0 => exec_of_jump_not_taken rfl ha hb fun h => jumpIfTrue_taken_iff.1 h ha0⟩

/-- Settles O23: JumpIfFalse is the jump taken on 0. -/
theorem jumpIfFalseCompletes : Obligations.JumpIfFalseCompletes := by
  intro s m1 m2 a b ha hb
  exact ⟨fun ha0 => exec_of_jump_taken rfl ha hb (jumpIfFalse_taken_iff.2 ha0),
    fun ha0 => exec_of_jump_not_taken rfl ha hb fun h => ha0 (jumpIfFalse_taken_iff.1 h)⟩

/-- Settles O24: the new `rb` is in range, so its word is the sum. -/
theorem adjustRelativeBaseCompletes : Obligations.AdjustRelativeBaseCompletes := fun _ _ _ ha hrange hip =>
  ⟨_, exec_adjustRelativeBase ha hrange hip, Word.toInt_ofZ hrange, rfl⟩

/-- Settles O25: Halt meets one check, that of the next `ip`. -/
theorem haltCompletes : Obligations.HaltCompletes := fun _ hip => exec_halt hip

end Sys2Proof
end

section
/-!
PROOFS. The family 'other', where instructions trap (30_encoding.md section 4, 60_exceptions.md section 2): the check that fails
first, with those before it passed.
-/

namespace Sys2Proof.Machine

variable {s : State} {m1 m2 m3 : Mode} {a b r : Word} {dest : Nat} {f : FaultInfo}

/-! ## The checks that fail -/

theorem nextIp_overflow {e : Engine} {n : Nat} (h : intMax < (e.ip : Int) + n) :
    nextIp e n = .error (.arithmeticOverflow ((e.ip : Int) + n)) := by
  rw [nextIp, chk64_error fun hr => not_le.2 h hr.2, error_bind]

theorem sumResult_overflow (h : ¬ InRange (a.toInt + b.toInt)) :
    sumResult a b = .error (.arithmeticOverflow (a.toInt + b.toInt)) := by
  rw [sumResult, chk64_error h, error_bind]

theorem productResult_overflow (h : ¬ InRange (a.toInt * b.toInt)) :
    productResult a b = .error (.arithmeticOverflow (a.toInt * b.toInt)) := by
  rw [productResult, chk64_error h, error_bind]

theorem jumpTarget_of_neg (h : b.toInt < 0) : jumpTarget b = .error (.negativeAddress b.toInt) := if_pos h

/-! ## The three-parameter instructions, check by check -/

section Alu

variable {g : Word → Word → Except FaultInfo Word}

theorem alu_of_value1_error (hm : m3 ≠ .immediate) (h1 : resolveValue s.toEngine 1 m1 = .error f) :
    alu g m1 m2 m3 s = .error f := by
  rw [alu, checkDestination_of_ne hm, ok_bind, h1, error_bind]

theorem alu_of_value2_error (hm : m3 ≠ .immediate) (h1 : resolveValue s.toEngine 1 m1 = .ok a)
    (h2 : resolveValue s.toEngine 2 m2 = .error f) : alu g m1 m2 m3 s = .error f := by
  rw [alu, checkDestination_of_ne hm, ok_bind, h1, ok_bind, h2, error_bind]

theorem alu_of_destination_error (hm : m3 ≠ .immediate) (h1 : resolveValue s.toEngine 1 m1 = .ok a)
    (h2 : resolveValue s.toEngine 2 m2 = .ok b) (h3 : resolveDestination s.toEngine 3 m3 = .error f) :
    alu g m1 m2 m3 s = .error f := by
  rw [alu, checkDestination_of_ne hm, ok_bind, h1, ok_bind, h2, ok_bind, h3, error_bind]

theorem alu_of_result_error (h1 : resolveValue s.toEngine 1 m1 = .ok a) (h2 : resolveValue s.toEngine 2 m2 = .ok b)
    (h3 : resolveDestination s.toEngine 3 m3 = .ok dest) (hg : g a b = .error f) : alu g m1 m2 m3 s = .error f := by
  rw [alu, checkDestination_of_ne (resolveDestination_ok h3).1, ok_bind, h1, ok_bind, h2, ok_bind, h3, ok_bind, hg, error_bind]

theorem alu_of_nextIp_error (h1 : resolveValue s.toEngine 1 m1 = .ok a) (h2 : resolveValue s.toEngine 2 m2 = .ok b)
    (h3 : resolveDestination s.toEngine 3 m3 = .ok dest) (hg : g a b = .ok r) (hn : nextIp s.toEngine 4 = .error f) :
    alu g m1 m2 m3 s = .error f := by
  rw [alu, checkDestination_of_ne (resolveDestination_ok h3).1, ok_bind, h1, ok_bind, h2, ok_bind, h3, ok_bind, hg, ok_bind, hn,
    error_bind]

end Alu

/-! ## The jumps, check by check -/

section Jump

variable {taken : Word → Bool}

theorem jump_of_value1_error (h1 : resolveValue s.toEngine 1 m1 = .error f) : jump taken m1 m2 s = .error f := by
  rw [jump, h1, error_bind]

theorem jump_of_value2_error (h1 : resolveValue s.toEngine 1 m1 = .ok a) (h2 : resolveValue s.toEngine 2 m2 = .error f) :
    jump taken m1 m2 s = .error f := by
  rw [jump, h1, ok_bind, h2, error_bind]

theorem jump_of_target_neg (h1 : resolveValue s.toEngine 1 m1 = .ok a) (h2 : resolveValue s.toEngine 2 m2 = .ok b)
    (htaken : taken a = true) (hneg : b.toInt < 0) : jump taken m1 m2 s = .error (.negativeAddress b.toInt) := by
  rw [jump_of_values h1 h2, jumpNext, if_pos htaken, jumpTarget_of_neg hneg, error_bind]

theorem jump_of_nextIp_error (h1 : resolveValue s.toEngine 1 m1 = .ok a) (h2 : resolveValue s.toEngine 2 m2 = .ok b)
    (htaken : ¬ taken a = true) (hn : nextIp s.toEngine 3 = .error f) : jump taken m1 m2 s = .error f := by
  rw [jump_of_values h1 h2, jumpNext, if_neg htaken, hn, error_bind]

end Jump

/-! ## Input, Output, AdjustRelativeBase and Halt, check by check -/

/-- Input's dispatch check is the first thing its resolver does, so an Immediate destination is one of the resolver's faults. -/
theorem input_of_destination_error (h : resolveDestination s.toEngine 1 m1 = .error f) : input m1 s = .error f := by
  by_cases hm : m1 = .immediate
  · subst hm
    rw [resolveDestination_immediate] at h
    cases h
    rfl
  · rw [input, checkDestination_of_ne hm, ok_bind, h, error_bind]

theorem input_of_nextIp_error (h : resolveDestination s.toEngine 1 m1 = .ok dest) (hn : nextIp s.toEngine 2 = .error f) :
    input m1 s = .error f := by
  rw [input, checkDestination_of_ne (resolveDestination_ok h).1, ok_bind, h, ok_bind, hn, error_bind]

theorem output_of_value_error (h : resolveValue s.toEngine 1 m1 = .error f) : output m1 s = .error f := by
  rw [output, h, error_bind]

theorem output_of_nextIp_error (h : resolveValue s.toEngine 1 m1 = .ok a) (hn : nextIp s.toEngine 2 = .error f) :
    output m1 s = .error f := by
  rw [output, h, ok_bind, hn, error_bind]

theorem adjustRelativeBase_of_value_error (h : resolveValue s.toEngine 1 m1 = .error f) :
    adjustRelativeBase m1 s = .error f := by
  rw [adjustRelativeBase, h, error_bind]

theorem adjustRelativeBase_overflow (h : resolveValue s.toEngine 1 m1 = .ok a) (hr : ¬ InRange (s.rb.toInt + a.toInt)) :
    adjustRelativeBase m1 s = .error (.arithmeticOverflow (s.rb.toInt + a.toInt)) := by
  rw [adjustRelativeBase, h, ok_bind, chk64_error hr, error_bind]

theorem adjustRelativeBase_of_nextIp_error (h : resolveValue s.toEngine 1 m1 = .ok a) (hr : InRange (s.rb.toInt + a.toInt))
    (hn : nextIp s.toEngine 2 = .error f) : adjustRelativeBase m1 s = .error f := by
  rw [adjustRelativeBase, h, ok_bind, chk64_ok hr, ok_bind, hn, error_bind]

theorem halt_of_nextIp_error (hn : nextIp s.toEngine 1 = .error f) : halt s = .error f := by
  rw [halt, hn, error_bind]

/-! ## Instructions by family -/

theorem effect_of_mem_alu {i : Instr} (h : i ∈ [Instr.add m1 m2 m3, .mul m1 m2 m3, .lessThan m1 m2 m3, .equals m1 m2 m3])
    (s : State) : ∃ g, effect i s = alu g m1 m2 m3 s := by
  simp only [List.mem_cons, List.not_mem_nil, or_false] at h
  rcases h with rfl | rfl | rfl | rfl <;> exact ⟨_, rfl⟩

theorem effect_of_mem_jump {i : Instr} (h : i ∈ [Instr.jumpIfTrue m1 m2, .jumpIfFalse m1 m2]) (s : State) :
    ∃ taken, effect i s = jump taken m1 m2 s := by
  simp only [List.mem_cons, List.not_mem_nil, or_false] at h
  rcases h with rfl | rfl <;> exact ⟨_, rfl⟩

/-- A fault of parameter 1 is met before anything else by the instructions that read it (30_encoding.md R67 step 4). -/
theorem effect_of_value1_error {i : Instr} (hm : m3 ≠ .immediate) (h1 : resolveValue s.toEngine 1 m1 = .error f)
    (hi : i ∈ [Instr.add m1 m2 m3, .mul m1 m2 m3, .lessThan m1 m2 m3, .equals m1 m2 m3] ++
      ([.jumpIfTrue m1 m2, .jumpIfFalse m1 m2] ++ [.output m1, .adjustRelativeBase m1])) : effect i s = .error f := by
  rcases List.mem_append.1 hi with hi | hi
  · obtain ⟨g, hg⟩ := effect_of_mem_alu hi s
    rw [hg, alu_of_value1_error hm h1]
  rcases List.mem_append.1 hi with hi | hi
  · obtain ⟨taken, htaken⟩ := effect_of_mem_jump hi s
    rw [htaken, jump_of_value1_error h1]
  · simp only [List.mem_cons, List.not_mem_nil, or_false] at hi
    rcases hi with rfl | rfl
    · exact output_of_value_error h1
    · exact adjustRelativeBase_of_value_error h1

theorem effect_of_value2_error {i : Instr} (hm : m3 ≠ .immediate) (h1 : resolveValue s.toEngine 1 m1 = .ok a)
    (h2 : resolveValue s.toEngine 2 m2 = .error f)
    (hi : i ∈ [Instr.add m1 m2 m3, .mul m1 m2 m3, .lessThan m1 m2 m3, .equals m1 m2 m3] ++
      [.jumpIfTrue m1 m2, .jumpIfFalse m1 m2]) : effect i s = .error f := by
  rcases List.mem_append.1 hi with hi | hi
  · obtain ⟨g, hg⟩ := effect_of_mem_alu hi s
    rw [hg, alu_of_value2_error hm h1 h2]
  · obtain ⟨taken, htaken⟩ := effect_of_mem_jump hi s
    rw [htaken, jump_of_value2_error h1 h2]

theorem effect_of_destination_error {i : Instr} (hm : m3 ≠ .immediate) (h1 : resolveValue s.toEngine 1 m1 = .ok a)
    (h2 : resolveValue s.toEngine 2 m2 = .ok b) (h3 : resolveDestination s.toEngine 3 m3 = .error f)
    (hi : i ∈ [Instr.add m1 m2 m3, .mul m1 m2 m3, .lessThan m1 m2 m3, .equals m1 m2 m3]) : effect i s = .error f := by
  obtain ⟨g, hg⟩ := effect_of_mem_alu hi s
  rw [hg, alu_of_destination_error hm h1 h2 h3]

end Sys2Proof.Machine

namespace Sys2Proof

open Machine

/-- Settles O26: with every earlier check passed, the result's or the target's check is the one that fails. -/
theorem computedValueFaultsAreTaken : Obligations.ComputedValueFaultsAreTaken := by
  intro s m1 m2 m3 a ha
  refine ⟨fun hr => ?rebase, fun b hb => ⟨fun ha0 hneg => ?jumpIfTrue, fun ha0 hneg => ?jumpIfFalse,
    fun dest hdest => ⟨fun hr => ?add, fun hr => ?mul⟩⟩⟩
  case rebase => exact exec_of_effect_error (i := .adjustRelativeBase m1) (adjustRelativeBase_overflow ha hr)
  case jumpIfTrue =>
    exact exec_of_effect_error (i := .jumpIfTrue m1 m2) (jump_of_target_neg ha hb (jumpIfTrue_taken_iff.2 ha0) hneg)
  case jumpIfFalse =>
    exact exec_of_effect_error (i := .jumpIfFalse m1 m2) (jump_of_target_neg ha hb (jumpIfFalse_taken_iff.2 ha0) hneg)
  case add => exact exec_of_effect_error (i := .add m1 m2 m3) (alu_of_result_error ha hb hdest (sumResult_overflow hr))
  case mul => exact exec_of_effect_error (i := .mul m1 m2 m3) (alu_of_result_error ha hb hdest (productResult_overflow hr))

/-- Settles O27: the parameters are resolved in order, each before the next, so the first that fails decides. -/
theorem firstOperandFaultIsTaken : Obligations.FirstOperandFaultIsTaken := by
  intro s m1 m2 m3 f hm
  refine ⟨fun h1 i hi => ?value1, fun a h1 h2 i hi => ?value2, fun a b h1 h2 h3 i hi => ?destination, fun h1 => ?input⟩
  case value1 => exact exec_of_effect_error (effect_of_value1_error hm h1 hi)
  case value2 => exact exec_of_effect_error (effect_of_value2_error hm h1 h2 hi)
  case destination => exact exec_of_effect_error (effect_of_destination_error hm h1 h2 h3 hi)
  case input => exact exec_of_effect_error (i := .input m1) (input_of_destination_error h1)

/-- Settles O28: with operands and result checked, the check of the next `ip` is the one that fails. -/
theorem sequencingOverflowIsTaken : Obligations.SequencingOverflowIsTaken := by
  intro s m1 m2 m3 a b dest
  refine ⟨fun h => ?one, fun h => ⟨fun hdest => ?input, fun ha => ⟨?output, fun hr => ?rebase⟩⟩,
    fun ha hb => ⟨fun h => ⟨fun ha0 => ?jumpIfTrue, fun ha0 => ?jumpIfFalse⟩, fun h hdest => ?four⟩⟩
  case one => exact exec_of_effect_error (i := .halt) (halt_of_nextIp_error (nextIp_overflow h))
  case input => exact exec_of_effect_error (i := .input m1) (input_of_nextIp_error hdest (nextIp_overflow h))
  case output => exact exec_of_effect_error (i := .output m1) (output_of_nextIp_error ha (nextIp_overflow h))
  case rebase =>
    exact exec_of_effect_error (i := .adjustRelativeBase m1) (adjustRelativeBase_of_nextIp_error ha hr (nextIp_overflow h))
  case jumpIfTrue =>
    have htaken := fun ht => jumpIfTrue_taken_iff.1 ht ha0
    exact exec_of_effect_error (i := .jumpIfTrue m1 m2) (jump_of_nextIp_error ha hb htaken (nextIp_overflow h))
  case jumpIfFalse =>
    have htaken := fun ht => ha0 (jumpIfFalse_taken_iff.1 ht)
    exact exec_of_effect_error (i := .jumpIfFalse m1 m2) (jump_of_nextIp_error ha hb htaken (nextIp_overflow h))
  case four =>
    have halu {g : Word → Word → Except FaultInfo Word} {r : Word} (hg : g a b = .ok r) :
        alu g m1 m2 m3 s = .error (.arithmeticOverflow (s.ip + 4)) := alu_of_nextIp_error ha hb hdest hg (nextIp_overflow h)
    exact ⟨exec_of_effect_error (i := .lessThan m1 m2 m3) (halu (lessThanResult_eq a b)),
      exec_of_effect_error (i := .equals m1 m2 m3) (halu (equalsResult_eq a b)),
      fun hr => exec_of_effect_error (i := .add m1 m2 m3) (halu (sumResult_eq hr)),
      fun hr => exec_of_effect_error (i := .mul m1 m2 m3) (halu (productResult_eq hr))⟩

end Sys2Proof
end

section
/-!
PROOFS. The family 'other', capacity (20_memory.md section 1): without one, no address that a word or a checked sum can hold
reaches CAP.
-/

namespace Sys2Proof.Machine

theorem fetchExec_of_error {s : State} {f : FaultInfo} (h : fetchDecode s.toEngine = .error f) :
    fetchExec s = .next (s.takeFault f) := by
  simp only [fetchExec, h]

/-- The ways a step of an engine ends, with the check that failed where a fault is taken. -/
theorem fetchExec_outcomes {s t : State} (h : fetchExec s = .next t) :
    (∃ i, fetchDecode s.toEngine = .ok i ∧ effect i s = .ok t) ∨
      ∃ f, t = s.takeFault f ∧ (fetchDecode s.toEngine = .error f ∨ ∃ i, effect i s = .error f) := by
  cases hd : fetchDecode s.toEngine with
  | ok i =>
    rw [fetchExec_of_fetchDecode hd] at h
    rcases exec_next h with hok | ⟨f, herror, rfl⟩
    · exact .inl ⟨i, rfl, hok⟩
    · exact .inr ⟨f, rfl, .inr ⟨i, herror⟩⟩
  | error f =>
    rw [fetchExec_of_error hd] at h
    cases h
    exact .inr ⟨f, rfl, .inl rfl⟩

theorem FaultInfo.ofDecode_ne_memoryCapacityExceeded (d : DecodeFault) (a : Nat) :
    FaultInfo.ofDecode d ≠ .memoryCapacityExceeded a := by
  cases d <;> simp [FaultInfo.ofDecode]

theorem fetchDecode_ne_memoryCapacityExceeded {e : Engine} {f : FaultInfo} {a : Nat} (hip : e.ip < e.cap)
    (h : fetchDecode e = .error f) : f ≠ .memoryCapacityExceeded a := by
  rcases fetchDecode_error h with ⟨hcap, -⟩ | ⟨w, d, -, -, rfl⟩
  · omega
  · exact FaultInfo.ofDecode_ne_memoryCapacityExceeded d a

theorem OperandFault.ne_memoryCapacityExceeded {e : Engine} {f : FaultInfo} {a : Nat} (hcap : intMax < e.cap)
    (h : OperandFault e f) : f ≠ .memoryCapacityExceeded a := by
  obtain ⟨z, rfl⟩ | ⟨z, rfl⟩ | ⟨-, -, z, ⟨-, hz⟩, hle⟩ := h
  · simp
  · simp
  · exact absurd (hz.trans_lt hcap) (not_lt.2 hle)

theorem effect_ne_memoryCapacityExceeded {i : Instr} {s : State} {f : FaultInfo} {a : Nat} (hcap : intMax < s.cap)
    (h : effect i s = .error f) : f ≠ .memoryCapacityExceeded a := by
  rcases effect_error h with ⟨k, -, rfl⟩ | ⟨-, hf⟩
  · simp
  · exact hf.ne_memoryCapacityExceeded hcap

end Sys2Proof.Machine

namespace Sys2Proof

open Machine

/-- Settles O5: CAP is 2^63, above every `ip` in range and every checked address; so the fault is another, or there is none. -/
theorem unboundedMemoryIsNeverExceeded : Obligations.UnboundedMemoryIsNeverExceeded := by
  intro s t hnone hip hflt hstep r a hr
  have hcap : intMax < s.cap := by rw [Engine.cap_of_none hnone]; decide
  rcases fetchExec_outcomes hstep with ⟨i, -, hok⟩ | ⟨f, rfl, hfault⟩
  · rw [(effect_ok_st hok).1, hflt] at hr
    cases hr
  · rw [State.takeFault_flt] at hr
    cases hr
    rcases hfault with hd | ⟨i, heffect⟩
    · exact fetchDecode_ne_memoryCapacityExceeded (by omega) hd
    · exact effect_ne_memoryCapacityExceeded hcap heffect

end Sys2Proof
end

section
/-!
PROOFS. The family 'other', frames (40 to 43 with 60_exceptions.md section 3): what each instruction family leaves unchanged.
-/

namespace Sys2Proof.Machine

variable {s t : State} {m1 m2 m3 : Mode}

/-! ## `State.pushOut` by who drives the machine -/

@[simp] theorem State.pushOut_mem (s : State) (v : Word) : (s.pushOut v).mem = s.mem := by rw [State.pushOut_toEngine]
@[simp] theorem State.pushOut_memCapacity (s : State) (v : Word) : (s.pushOut v).memCapacity = s.memCapacity := by
  rw [State.pushOut_toEngine]
@[simp] theorem State.pushOut_ip (s : State) (v : Word) : (s.pushOut v).ip = s.ip := by rw [State.pushOut_toEngine]
@[simp] theorem State.pushOut_rb (s : State) (v : Word) : (s.pushOut v).rb = s.rb := by rw [State.pushOut_toEngine]
@[simp] theorem State.pushOut_flt (s : State) (v : Word) : (s.pushOut v).flt = s.flt := by rw [State.pushOut_toEngine]

/-- Outside a ring an Output reaches no queue of the ring and no latch. -/
theorem State.pushOut_of_ne_ring (s : State) (v : Word) (h : s.wiring ≠ .ring) :
    (s.pushOut v).inq = s.inq ∧ (s.pushOut v).before = s.before ∧ (s.pushOut v).after = s.after ∧
      (s.pushOut v).last = s.last := by
  cases hw : s.wiring with
  | host => simp [State.pushOut_host s v hw]
  | ring => exact absurd hw h
  | unbuilt f => simp [State.pushOut_unbuilt s v hw]

theorem State.pushOut_outq_of_ne_host (s : State) (v : Word) (h : s.wiring ≠ .host) : (s.pushOut v).outq = s.outq := by
  cases hw : s.wiring with
  | host => exact absurd hw h
  | ring =>
    obtain ⟨-, -, houtq, -⟩ := s.pushOut_ring v hw
    exact houtq
  | unbuilt f => rw [State.pushOut_unbuilt s v hw]

/-- Whoever drives the machine, an Output leaves the other engines alone. -/
theorem State.pushOut_engines (s : State) (v : Word) :
    (s.pushOut v).before.map (·.toEngine) = s.before.map (·.toEngine) ∧
      (s.pushOut v).after.map (·.toEngine) = s.after.map (·.toEngine) := by
  by_cases hw : s.wiring = .ring
  · obtain ⟨-, -, -, hbefore, hafter⟩ := s.pushOut_ring v hw
    exact ⟨hbefore, hafter⟩
  · obtain ⟨-, hbefore, hafter, -⟩ := s.pushOut_of_ne_ring v hw
    rw [hbefore, hafter]
    exact ⟨rfl, rfl⟩

@[simp] theorem State.pushOut_index (s : State) (v : Word) : (s.pushOut v).index = s.index := by
  simpa [State.index] using congrArg List.length (s.pushOut_engines v).1

/-! ## The queues of the ring -/

/-- The input queues in index order: `Q[0]`, `Q[1]`, ... (45_orchestrator.md R130). -/
def State.queues (s : State) : List (List Word) := s.stations.map (·.inq)

theorem State.queues_congr (hw : t.wiring = s.wiring) (hb : t.before = s.before) (hq : t.inq = s.inq)
    (ha : t.after = s.after) : t.queues = s.queues := by
  simp only [State.queues, State.stations, hw]
  cases s.wiring <;> simp [hb, hq, ha]

@[simp] theorem State.queues_setIp_setSt (s : State) (n : Nat) (x : ExecState) : ((s.setIp n).setSt x).queues = s.queues :=
  State.queues_congr rfl rfl rfl rfl

theorem State.queues_pushOut_of_ring (s : State) (v : Word) (h : s.wiring = .ring) :
    (s.pushOut v).queues = s.queues.modify ((s.index + 1) % s.stations.length) (fun q => q ++ [v]) :=
  (s.pushOut_ring v h).1

theorem State.queues_pushOut_of_ne (s : State) (v : Word) (h : s.wiring = .ring) {j : Nat}
    (hj : j ≠ (s.index + 1) % s.stations.length) : (s.pushOut v).queues[j]? = s.queues[j]? := by
  rw [State.queues_pushOut_of_ring s v h, List.getElem?_modify_ne _ _ hj.symm]

/-! ## Control -/

/-- What the jumps, AdjustRelativeBase and Halt may write when they meet no fault: `ip`, `st` and, for AdjustRelativeBase, `rb`. -/
theorem control_ok {i : Instr} (hi : i ∈ [Instr.jumpIfTrue m1 m2, .jumpIfFalse m1 m2, .adjustRelativeBase m1, .halt])
    (h : effect i s = .ok t) :
    ∃ rb n x, t = ((s.setRb rb).setIp n).setSt x ∧ x ≠ .faulted ∧ (i ≠ .adjustRelativeBase m1 → rb = s.rb) := by
  simp only [List.mem_cons, List.not_mem_nil, or_false] at hi
  rcases hi with rfl | rfl | rfl | rfl
  · obtain ⟨-, -, n, -, -, -, rfl⟩ := jump_ok h
    exact ⟨s.rb, n, .ready, rfl, by decide, fun _ => rfl⟩
  · obtain ⟨-, -, n, -, -, -, rfl⟩ := jump_ok h
    exact ⟨s.rb, n, .ready, rfl, by decide, fun _ => rfl⟩
  · obtain ⟨-, -, -, -, rfl⟩ := adjustRelativeBase_ok h
    exact ⟨_, s.ip + 2, .ready, rfl, by decide, fun hne => absurd rfl hne⟩
  · obtain ⟨-, rfl⟩ := halt_ok h
    exact ⟨s.rb, s.ip + 1, .halted, rfl, by decide, fun _ => rfl⟩

end Sys2Proof.Machine

namespace Sys2Proof

open Machine

/-- Settles O30: the completed instruction writes the resolved destination, `ip` and `st`; a fault writes `st` and `flt`. -/
theorem aluFrame : Obligations.AluFrame := by
  intro s t m1 m2 m3 i hi hstep
  rcases exec_next hstep with hok | ⟨f, -, rfl⟩
  · obtain ⟨g, hg⟩ := effect_of_mem_alu hi s
    obtain ⟨-, -, dest, r, -, -, hdest, -, -, rfl⟩ := alu_ok (hg ▸ hok)
    have hcells : ∀ a, (∀ dest, resolveDestination s.toEngine 3 m3 = .ok dest → a ≠ dest) →
        (s.mem.write dest r).read a = s.mem.read a :=
      fun a ha => Memory.read_write_of_ne s.mem r (ha dest hdest)
    simpa using hcells
  · simp

/-- Settles O31: Input suspends, or writes the resolved destination, the queue, `ip` and `st`; a fault writes `st` and `flt`. -/
theorem inputFrame : Obligations.InputFrame := by
  intro s t m1 hstep
  rcases exec_next hstep with hok | ⟨f, -, rfl⟩
  · obtain ⟨dest, hdest, -, ⟨-, rfl⟩ | ⟨v, rest, -, rfl⟩⟩ := input_ok hok
    · simp
    · have hcells : ∀ a, (∀ dest, resolveDestination s.toEngine 1 m1 = .ok dest → a ≠ dest) →
          (s.mem.write dest v).read a = s.mem.read a :=
        fun a ha => Memory.read_write_of_ne s.mem v (ha dest hdest)
      simpa using hcells
  · simp

/-- Settles O32: the completed Output is `pushOut` with `ip` and `st`; a fault writes `st` and `flt`. -/
theorem outputFrame : Obligations.OutputFrame := by
  intro s t m1 hstep
  rcases exec_next hstep with hok | ⟨f, -, rfl⟩
  · obtain ⟨a, -, -, rfl⟩ := output_ok hok
    obtain ⟨hbefore, hafter⟩ := s.pushOut_engines a
    have hqueues (hring : s.wiring = .ring) (j : Nat) (hj : j ≠ (s.index + 1) % s.stations.length) :
        (((s.pushOut a).setIp (s.ip + 2)).setSt .ready).queues[j]? = s.queues[j]? := by
      rw [State.queues_setIp_setSt, State.queues_pushOut_of_ne s a hring hj]
    exact ⟨by simp, by simp, by simp, by simp, by simp, by simp, hbefore, hafter, s.pushOut_of_ne_ring a,
      s.pushOut_outq_of_ne_host a, hqueues, by simp⟩
  · have hqueues : (s.takeFault f).queues = s.queues := State.queues_congr rfl rfl rfl rfl
    have hget (j : Nat) := congrArg (·[j]?) hqueues
    exact ⟨rfl, rfl, rfl, rfl, rfl, by simp, rfl, rfl, fun _ => ⟨rfl, rfl, rfl, rfl⟩, fun _ => rfl, fun _ j _ => hget j,
      fun _ => ⟨rfl, rfl, rfl, rfl, rfl, rfl⟩⟩

/-- Settles O33: a completed control instruction writes `ip`, `st` and at most `rb`; a fault writes `st` and `flt`. -/
theorem controlFrame : Obligations.ControlFrame := by
  intro s t m1 m2 i hi hstep
  rcases exec_next hstep with hok | ⟨f, -, rfl⟩
  · obtain ⟨rb, n, x, rfl, hx, hrb⟩ := control_ok hi hok
    simpa [hx] using hrb
  · simp

/-- Settles O21: the queue, the latch and what stays are those of `pushOut` in a ring. -/
theorem outputFeedsNextEngine : Obligations.OutputFeedsNextEngine := by
  intro s m1 a ha hip hring
  obtain ⟨-, hlast, houtq, -⟩ := s.pushOut_ring a hring
  have hqueues : (((s.pushOut a).setIp (s.ip + 2)).setSt .ready).queues =
      s.queues.modify ((s.index + 1) % s.stations.length) (fun q => q ++ [a]) := by
    rw [State.queues_setIp_setSt, State.queues_pushOut_of_ring s a hring]
  have hengine : (((s.pushOut a).setIp (s.ip + 2)).setSt .ready).toEngine =
      { (s.pushOut a).toEngine with ip := s.ip + 2, st := .ready } := rfl
  rw [State.pushOut_toEngine] at hengine
  exact ⟨_, exec_output ha hip, hqueues, hlast, hengine, s.pushOut_index a, s.pushOut_wiring a, houtq, s.pushOut_ost a⟩

end Sys2Proof
end

section
/-!
PROOFS. The family 'other', whole-machine rules (44_engine_run.md section 2, 10_state.md sections 1 to 3): one inversion of every
instruction that meets no fault, and what follows from it.
-/

namespace Sys2Proof.Machine

/-- The ways an instruction that meets no fault completes or suspends, with the checks it has passed. -/
inductive Completion (i : Instr) (s : State) : State → Prop
  /-- Add, Mul, LessThan and Equals -/
  | stored (m3 : Mode) (dest : Nat) (r : Word) (hi : i.destination = some (3, m3)) (hlen : i.length = 4)
      (hdest : resolveDestination s.toEngine 3 m3 = .ok dest) (hip : (s.ip : Int) + 4 ≤ intMax) :
      Completion i s (((s.setMem (s.mem.write dest r)).setIp (s.ip + 4)).setSt .ready)
  /-- Input with a value waiting -/
  | received (m1 : Mode) (dest : Nat) (v : Word) (rest : List Word) (hi : i = .input m1)
      (hdest : resolveDestination s.toEngine 1 m1 = .ok dest) (hip : (s.ip : Int) + 2 ≤ intMax) (hq : s.inq = v :: rest) :
      Completion i s ((((s.setInq rest).setMem (s.mem.write dest v)).setIp (s.ip + 2)).setSt .ready)
  /-- Input on an empty queue -/
  | suspended (m1 : Mode) (dest : Nat) (hi : i = .input m1) (hdest : resolveDestination s.toEngine 1 m1 = .ok dest)
      (hip : (s.ip : Int) + 2 ≤ intMax) (hq : s.inq = []) : Completion i s (s.setSt .blockedOnInput)
  /-- Output -/
  | sent (m1 : Mode) (a : Word) (hi : i = .output m1) (hip : (s.ip : Int) + 2 ≤ intMax) :
      Completion i s (((s.pushOut a).setIp (s.ip + 2)).setSt .ready)
  /-- JumpIfTrue and JumpIfFalse, taken or not -/
  | jumped (m1 m2 : Mode) (n : Nat) (hi : i = .jumpIfTrue m1 m2 ∨ i = .jumpIfFalse m1 m2) (hip : (n : Int) ≤ intMax) :
      Completion i s ((s.setIp n).setSt .ready)
  /-- AdjustRelativeBase -/
  | rebased (m1 : Mode) (v : Word) (hi : i = .adjustRelativeBase m1) (hip : (s.ip : Int) + 2 ≤ intMax) :
      Completion i s (((s.setRb v).setIp (s.ip + 2)).setSt .ready)
  /-- Halt -/
  | stopped (hi : i = .halt) (hip : (s.ip : Int) + 1 ≤ intMax) : Completion i s ((s.setIp (s.ip + 1)).setSt .halted)

theorem Completion.of_alu {i : Instr} {s t : State} {g : Word → Word → Except FaultInfo Word} {m1 m2 m3 : Mode}
    (hi : i.destination = some (3, m3)) (hlen : i.length = 4) (h : alu g m1 m2 m3 s = .ok t) : Completion i s t := by
  obtain ⟨-, -, dest, r, -, -, hdest, -, hip, rfl⟩ := alu_ok h
  exact .stored m3 dest r hi hlen hdest hip

theorem Completion.of_jump {i : Instr} {s t : State} {taken : Word → Bool} {m1 m2 : Mode}
    (hi : i = .jumpIfTrue m1 m2 ∨ i = .jumpIfFalse m1 m2) (h : jump taken m1 m2 s = .ok t) : Completion i s t := by
  obtain ⟨-, b, n, -, -, ⟨-, -, rfl⟩ | ⟨-, hip, rfl⟩, rfl⟩ := jump_ok h
  · have hb := b.inRange.2
    exact .jumped m1 m2 _ hi (by simp only [intMax] at hb ⊢; omega)
  · exact .jumped m1 m2 _ hi (by simpa using hip)

/-- Everything an instruction that meets no fault can do. -/
theorem effect_completion {i : Instr} {s t : State} (h : effect i s = .ok t) : Completion i s t := by
  cases i with
  | add m1 m2 m3 => exact .of_alu rfl rfl h
  | mul m1 m2 m3 => exact .of_alu rfl rfl h
  | lessThan m1 m2 m3 => exact .of_alu rfl rfl h
  | equals m1 m2 m3 => exact .of_alu rfl rfl h
  | jumpIfTrue m1 m2 => exact .of_jump (.inl rfl) h
  | jumpIfFalse m1 m2 => exact .of_jump (.inr rfl) h
  | input m1 =>
    obtain ⟨dest, hdest, hip, ⟨hq, rfl⟩ | ⟨v, rest, hq, rfl⟩⟩ := input_ok h
    · exact .suspended m1 dest rfl hdest hip hq
    · exact .received m1 dest v rest rfl hdest hip hq
  | output m1 =>
    obtain ⟨a, -, hip, rfl⟩ := output_ok h
    exact .sent m1 a rfl hip
  | adjustRelativeBase m1 =>
    obtain ⟨a, -, -, hip, rfl⟩ := adjustRelativeBase_ok h
    exact .rebased m1 _ rfl hip
  | halt =>
    obtain ⟨hip, rfl⟩ := halt_ok h
    exact .stopped rfl hip

section Completion

variable {i : Instr} {s t : State}

/-- Memory is kept, or written at a destination that has been resolved. -/
theorem Completion.mem_cases (h : Completion i s t) :
    t.mem = s.mem ∨ ∃ k m dest r, i.destination = some (k, m) ∧ resolveDestination s.toEngine k m = .ok dest ∧
      t.mem = s.mem.write dest r := by
  cases h with
  | stored m3 dest r hi _ hdest => exact .inr ⟨3, m3, dest, r, hi, hdest, rfl⟩
  | received m1 dest v rest hi hdest => exact .inr ⟨1, m1, dest, v, by rw [hi]; rfl, hdest, rfl⟩
  | suspended => exact .inl rfl
  | sent => exact .inl (by simp)
  | jumped => exact .inl rfl
  | rebased => exact .inl rfl
  | stopped => exact .inl rfl

theorem Completion.memCapacity (h : Completion i s t) : t.memCapacity = s.memCapacity := by
  cases h <;> simp

theorem Completion.rb_cases (h : Completion i s t) : t.rb = s.rb ∨ ∃ m1, i = .adjustRelativeBase m1 := by
  cases h with
  | rebased m1 v hi => exact .inr ⟨m1, hi⟩
  | sent => exact .inl (by simp)
  | stored => exact .inl rfl
  | received => exact .inl rfl
  | suspended => exact .inl rfl
  | jumped => exact .inl rfl
  | stopped => exact .inl rfl

theorem Completion.extent_le (h : Completion i s t) : s.mem.extent ≤ t.mem.extent := by
  rcases h.mem_cases with hmem | ⟨-, -, dest, r, -, -, hmem⟩
  · rw [hmem]
  · rw [hmem, Memory.write_extent]
    exact le_max_left _ _

/-- The lengths by which `ip` moves are those of 30_encoding.md R56. -/
theorem Completion.ip_eq (h : Completion i s t) (hst : t.st ≠ .blockedOnInput)
    (hjump : ∀ m1 m2, i ≠ .jumpIfTrue m1 m2 ∧ i ≠ .jumpIfFalse m1 m2) : t.ip = s.ip + i.length := by
  cases h with
  | stored m3 dest r _ hlen => simp [hlen]
  | received m1 dest v rest hi => simp [hi, Instr.length, Instr.modes]
  | suspended => exact absurd rfl hst
  | sent m1 a hi => simp [hi, Instr.length, Instr.modes]
  | jumped m1 m2 n hi => exact (hi.elim (hjump m1 m2).1 (hjump m1 m2).2).elim
  | rebased m1 v hi => simp [hi, Instr.length, Instr.modes]
  | stopped hi => simp [hi, Instr.length, Instr.modes]

end Completion

end Sys2Proof.Machine

namespace Sys2Proof

open Machine

/-- Settles O34: an instruction that meets no fault is Ready, Halted or blocked; one that meets a fault takes it. -/
theorem fourOutcomesOfAnInstruction : Obligations.FourOutcomesOfAnInstruction := by
  intro i s
  cases heffect : effect i s with
  | ok t =>
    refine ⟨t, exec_of_effect_ok heffect, ?_⟩
    obtain ⟨hflt, ⟨hst, hi⟩ | ⟨hst, hi⟩ | ⟨hi, hq, rfl⟩⟩ := effect_ok_st heffect
    · exact .inl ⟨hst, hi, hflt⟩
    · exact .inr (.inl ⟨hst, hi, hflt⟩)
    · exact .inr (.inr (.inl ⟨hi, hq, rfl⟩))
  | error f =>
    exact ⟨s.takeFault f, exec_of_effect_error heffect, .inr (.inr (.inr ⟨f, effect_error_ne heffect, rfl⟩))⟩

/-- Settles O35: a fault writes neither; a completion writes memory at a resolved destination, and `rb` in one instruction. -/
theorem writersOfMemoryAndRelativeBase : Obligations.WritersOfMemoryAndRelativeBase := by
  intro i s t hstep
  rcases exec_next hstep with hok | ⟨f, -, rfl⟩
  · have h := effect_completion hok
    refine ⟨fun hrb => h.rb_cases.resolve_left hrb, fun hmem => ?_, h.extent_le, h.memCapacity⟩
    obtain ⟨k, m, dest, r, hi, hdest, -⟩ := h.mem_cases.resolve_left hmem
    exact ⟨k, m, hi, (resolveDestination_ok hdest).1⟩
  · simp

/-- Settles O36: a fault leaves `st` Faulted, so the instruction has completed and `ip` has moved by its length. -/
theorem advanceByLength : Obligations.AdvanceByLength := by
  intro i s t hstep hst hjump
  rcases exec_next hstep with hok | ⟨f, -, rfl⟩
  · refine (effect_completion hok).ip_eq (fun hblocked => ?_) hjump
    rw [hblocked] at hst
    simp at hst
  · simp at hst

/-- Settles O37: Add that completes has written `r` at the destination, which is below CAP. -/
theorem storedWordIsFetched : Obligations.StoredWordIsFetched := by
  intro s t m1 m2 m3 a b r dest ha hb hdest hr hstep hst
  have hread : memRead t.toEngine dest = .ok r := by
    rcases exec_next hstep with hok | ⟨f, -, rfl⟩
    · have hip : (s.ip : Int) + 4 ≤ intMax := by
        obtain ⟨-, -, -, -, -, -, -, -, hip, -⟩ := alu_ok hok
        exact hip
      have ht := (alu_eq ha hb hdest hr hip).symm.trans hok
      cases ht
      have hcap : (dest : Int) < s.cap := by exact_mod_cast (resolveDestination_ok hdest).2
      exact memRead_ok_iff.2 ⟨by omega, hcap, by simp⟩
    · simp at hst
  exact ⟨hread, fun hip => by rw [fetch, ← hip, hread]⟩

end Sys2Proof
end

section
/-!
PROOFS. The family 'other', noninterference (45_orchestrator.md section 4): an instruction computed on two states with the same station.
-/

namespace Sys2Proof.Machine

/-! ## Comparing results through a view of them -/

theorem exists_ok_of_map_eq {α β : Type} {view : α → β} {x y : Except FaultInfo α} {a : α}
    (h : view <$> x = view <$> y) (hx : x = .ok a) : ∃ b, y = .ok b ∧ view b = view a := by
  cases y with
  | ok b =>
    rw [hx] at h
    exact ⟨b, rfl, (Except.ok.inj h).symm⟩
  | error f =>
    rw [hx] at h
    cases h

theorem error_of_map_eq {α β : Type} {view : α → β} {x y : Except FaultInfo α} {f : FaultInfo}
    (h : view <$> x = view <$> y) (hx : x = .error f) : y = .error f := by
  cases y with
  | ok b =>
    rw [hx] at h
    cases h
  | error g =>
    rw [hx] at h
    cases h
    rfl

/-- Seen through any view of the station, an instruction does the same to two states with the same station, if its Output does:
it is the one that looks outside. -/
theorem effect_map_of_station {α : Type} (view : Station → α) {s s' : State} (hs : s.toStation = s'.toStation)
    (hpush : ∀ v n, view (((s.pushOut v).setIp n).setSt .ready).toStation =
      view (((s'.pushOut v).setIp n).setSt .ready).toStation) (i : Instr) :
    (fun t : State => view t.toStation) <$> effect i s = (fun t : State => view t.toStation) <$> effect i s' := by
  obtain ⟨x, before, after, wiring, outq, last, ost⟩ := s
  obtain ⟨x', before', after', wiring', outq', last', ost'⟩ := s'
  cases hs
  cases i with
  | add m1 m2 m3 => simp only [effect, alu, map_bind]; rfl
  | mul m1 m2 m3 => simp only [effect, alu, map_bind]; rfl
  | lessThan m1 m2 m3 => simp only [effect, alu, map_bind]; rfl
  | equals m1 m2 m3 => simp only [effect, alu, map_bind]; rfl
  | jumpIfTrue m1 m2 => simp only [effect, jump, map_bind]; rfl
  | jumpIfFalse m1 m2 => simp only [effect, jump, map_bind]; rfl
  | adjustRelativeBase m1 => simp only [effect, adjustRelativeBase, map_bind]; rfl
  | halt => simp only [effect, halt, map_bind]; rfl
  | input m1 =>
    simp only [effect, input, map_bind]
    cases x.inq with
    | nil => rfl
    | cons v rest => simp only [map_bind]; rfl
  | output m1 =>
    simp only [effect, output, map_bind]
    refine bind_congr fun a => bind_congr fun n => ?_
    exact congrArg Except.ok (hpush a n)

theorem State.pushOut_setIp_setSt_toEngine (s : State) (v : Word) (n : Nat) (x : ExecState) :
    (((s.pushOut v).setIp n).setSt x).toEngine = { s.toEngine with ip := n, st := x } := by
  rw [← State.pushOut_toEngine s v]
  rfl

theorem State.takeFault_toStation_congr {s s' : State} (hs : s.toStation = s'.toStation) (f : FaultInfo) :
    (s.takeFault f).toStation = (s'.takeFault f).toStation := by
  simp only [State.takeFault, hs]

end Sys2Proof.Machine

namespace Sys2Proof

open Machine

/-- Settles O38: a fault is the same in both states; a completion is, seen through the engine, and with a host through the station. -/
theorem engineSeesOnlyItsStation : Obligations.EngineSeesOnlyItsStation := by
  intro i s s' t hs hstep
  have hengine := effect_map_of_station (·.toEngine) hs (i := i) fun v n => by
    simp only [State.pushOut_setIp_setSt_toEngine, hs]
  have hstation (hhost : s.wiring = .host) (hhost' : s'.wiring = .host) :=
    effect_map_of_station id hs (i := i) fun v n => by
      rw [State.pushOut_host s v hhost, State.pushOut_host s' v hhost']
      simp only [State.setIp, State.setSt, hs]
  rcases exec_next hstep with hok | ⟨f, herror, rfl⟩
  · obtain ⟨t', hok', ht'⟩ := exists_ok_of_map_eq hengine hok
    refine ⟨t', exec_of_effect_ok hok', ht', fun hhost hhost' => ?_⟩
    obtain ⟨u, hu, hut⟩ := exists_ok_of_map_eq (hstation hhost hhost') hok
    cases hok'.symm.trans hu
    exact congrArg Station.inq hut
  · have hfault := State.takeFault_toStation_congr hs f
    exact ⟨s'.takeFault f, exec_of_effect_error (error_of_map_eq hengine herror),
      congrArg Station.toEngine hfault.symm, fun _ _ => congrArg Station.inq hfault.symm⟩

end Sys2Proof
end

section
/-!
PROOFS. The family 'other', one iteration of `run` by the execution state (44_engine_run.md R112 to R116).
-/

namespace Sys2Proof.Machine

variable {s : State}

/-- The engine executes when it is run next: Ready, or blocked with input waiting (44_engine_run.md R112). -/
def State.Runnable (s : State) : Prop := s.st = .ready ∨ (s.st = .blockedOnInput ∧ s.inq ≠ [])

theorem State.Runnable.st_ne_faulted (h : s.Runnable) : s.st ≠ .faulted := by
  rcases h with hs | ⟨hs, -⟩ <;> simp [hs]

theorem engineTurn_of_runnable (h : s.Runnable) : s.engineTurn = fetchExec s := by
  rcases h with hs | ⟨hs, hq⟩
  · simp only [State.engineTurn, hs]
  · simp only [State.engineTurn, hs, if_neg hq]

theorem engineTurn_of_stopped (h : s.st = .halted ∨ s.st = .faulted) : s.engineTurn = .next s := by
  rcases h with hs | hs <;> simp only [State.engineTurn, hs]

theorem engineTurn_of_blocked_nil (h : s.st = .blockedOnInput) (hq : s.inq = []) : s.engineTurn = .next s := by
  simp only [State.engineTurn, h, hq, if_true]

/-- A host's engine that has not faulted steps by one iteration of `run`. -/
theorem step_of_host (hw : s.wiring = .host) (hst : s.st ≠ .faulted) : step s = s.engineTurn := by
  simp only [step, hw, State.hostStep]
  cases hs : s.st with
  | faulted => exact absurd hs hst
  | ready => rfl
  | blockedOnInput => rfl
  | halted => rfl

end Sys2Proof.Machine
end

section
/-!
PROOFS. The family 'other', the extent (10_state.md section 1): each operation commutes with widening the extent over the same cells.
-/

namespace Sys2Proof.Machine

/-! ## Memory with a wider extent -/

/-- The same cells under an extent of at least `n`. -/
def Memory.widen (n : Nat) (m : Memory) : Memory := { m with extent := max n m.extent }

/-- The engine with the same cells under an extent of at least `n`. -/
def Engine.widen (n : Nat) (e : Engine) : Engine := { e with mem := e.mem.widen n }

/-- The machine whose current engine has the same cells under an extent of at least `n`. -/
def State.widen (n : Nat) (s : State) : State := s.setMem (s.mem.widen n)

theorem State.widen_toEngine (n : Nat) (s : State) : (s.widen n).toEngine = s.toEngine.widen n := rfl

theorem State.widen_eq {n : Nat} {s : State} (h : s.mem.extent ≤ n) :
    s.widen n = { s with mem := { s.mem with extent := n } } := by
  simp only [State.widen, Memory.widen, max_eq_left h]
  rfl

theorem Memory.lookupCell_of_wf_of_ge {m : Memory} {a : Nat} (hm : m.wf) (h : m.extent ≤ a) : lookupCell m.cells a = 0 :=
  lookupCell_eq_zero fun c hc => ((hm.2 c hc).2.trans_le h).ne

/-- In canonical form a cell past the extent is not listed, so where the extent stands makes no difference to a read. -/
theorem Memory.read_widen {m : Memory} (n a : Nat) (hm : m.wf) : (m.widen n).read a = m.read a := by
  by_cases h : a < m.extent
  · rw [Memory.read_of_lt h, Memory.read_of_lt (h.trans_le (le_max_right _ _))]
    rfl
  · have hge := Nat.le_of_not_lt h
    have hzero := Memory.lookupCell_of_wf_of_ge hm hge
    rw [Memory.read_of_ge hge, Memory.read]
    exact ite_eq_right_iff.2 fun _ => hzero

/-- In canonical form a write keeps the same cells whichever extent it filters by. -/
theorem Memory.write_widen {m : Memory} (n a : Nat) (v : Word) (hm : m.wf) :
    (m.widen n).write a v = (m.write a v).widen n := by
  have hkept : ((m.widen n).cells.filter fun c => decide (c.1 ≠ a) && decide (c.1 < (m.widen n).extent)) =
      m.cells.filter fun c => decide (c.1 ≠ a) && decide (c.1 < m.extent) := by
    refine List.filter_congr fun c hc => ?_
    have hlt := (hm.2 c hc).2
    have hlt' : c.1 < (m.widen n).extent := hlt.trans_le (le_max_right _ _)
    simp [hlt, hlt']
  simp only [Memory.write, hkept]
  exact congrArg (Memory.mk _) (max_assoc n m.extent (a + 1))

/-! ## The checks and the resolver -/

section Resolver

variable {e : Engine}

@[simp] theorem addrCheck_widen (n : Nat) (e : Engine) (z : Int) : addrCheck (e.widen n) z = addrCheck e z := rfl

theorem memRead_widen (n : Nat) (hm : e.mem.wf) (z : Int) : memRead (e.widen n) z = memRead e z := by
  have hread : (e.widen n).mem.read = e.mem.read := funext fun a => Memory.read_widen n a hm
  simp only [memRead, addrCheck_widen, hread]

theorem memWrite_widen (n : Nat) (hm : e.mem.wf) (z : Int) (v : Word) :
    memWrite (e.widen n) z v = Memory.widen n <$> memWrite e z v := by
  have hwrite (a : Nat) : (e.widen n).mem.write a v = (e.mem.write a v).widen n := Memory.write_widen n a v hm
  simp only [memWrite, addrCheck_widen, hwrite, map_bind]
  rfl

theorem resolveValue_widen (n : Nat) (hm : e.mem.wf) (k : Nat) (m : Mode) :
    resolveValue (e.widen n) k m = resolveValue e k m := by
  simp only [resolveValue, readSlot, memRead_widen n hm]
  rfl

theorem resolveDestination_widen (n : Nat) (hm : e.mem.wf) (k : Nat) (m : Mode) :
    resolveDestination (e.widen n) k m = resolveDestination e k m := by
  simp only [resolveDestination, readSlot, memRead_widen n hm]
  rfl

theorem fetch_widen (n : Nat) (hm : e.mem.wf) : fetch (e.widen n) = fetch e := memRead_widen n hm e.ip

theorem fetchDecode_widen (n : Nat) (hm : e.mem.wf) : fetchDecode (e.widen n) = fetchDecode e := by
  simp only [fetchDecode, fetch_widen n hm]

end Resolver

/-! ## Instructions and the step -/

section Step

variable {s t : State}

theorem State.pushOut_widen (n : Nat) (s : State) (v : Word) : (s.widen n).pushOut v = (s.pushOut v).widen n := by
  obtain ⟨x, before, after, wiring, outq, last, ost⟩ := s
  cases wiring with
  | host => rfl
  | unbuilt f => rfl
  | ring =>
    cases after with
    | cons y ys => rfl
    | nil => cases before <;> rfl

theorem alu_widen (g : Word → Word → Except FaultInfo Word) (m1 m2 m3 : Mode) (n : Nat) (hm : s.mem.wf) :
    alu g m1 m2 m3 (s.widen n) = State.widen n <$> alu g m1 m2 m3 s := by
  simp only [alu, State.widen_toEngine, resolveValue_widen n hm, resolveDestination_widen n hm, memWrite_widen n hm,
    map_bind, bind_map_left]
  rfl

theorem jump_widen (taken : Word → Bool) (m1 m2 : Mode) (n : Nat) (hm : s.mem.wf) :
    jump taken m1 m2 (s.widen n) = State.widen n <$> jump taken m1 m2 s := by
  simp only [jump, State.widen_toEngine, resolveValue_widen n hm, map_bind]
  rfl

theorem input_widen (m1 : Mode) (n : Nat) (hm : s.mem.wf) : input m1 (s.widen n) = State.widen n <$> input m1 s := by
  simp only [input, State.widen_toEngine, resolveDestination_widen n hm, memWrite_widen n hm, map_bind]
  refine bind_congr fun _ => bind_congr fun dest => bind_congr fun k => ?_
  have hq : (s.widen n).inq = s.inq := rfl
  rw [hq]
  cases s.inq with
  | nil => rfl
  | cons v rest =>
    simp only [map_bind, bind_map_left]
    rfl

theorem output_widen (m1 : Mode) (n : Nat) (hm : s.mem.wf) : output m1 (s.widen n) = State.widen n <$> output m1 s := by
  simp only [output, State.widen_toEngine, resolveValue_widen n hm, State.pushOut_widen, map_bind]
  rfl

theorem adjustRelativeBase_widen (m1 : Mode) (n : Nat) (hm : s.mem.wf) :
    adjustRelativeBase m1 (s.widen n) = State.widen n <$> adjustRelativeBase m1 s := by
  simp only [adjustRelativeBase, State.widen_toEngine, resolveValue_widen n hm, map_bind]
  rfl

theorem halt_widen (n : Nat) (s : State) : halt (s.widen n) = State.widen n <$> halt s := by
  simp only [halt, map_bind]
  rfl

theorem effect_widen (i : Instr) (n : Nat) (hm : s.mem.wf) : effect i (s.widen n) = State.widen n <$> effect i s := by
  cases i with
  | add m1 m2 m3 => exact alu_widen _ m1 m2 m3 n hm
  | mul m1 m2 m3 => exact alu_widen _ m1 m2 m3 n hm
  | lessThan m1 m2 m3 => exact alu_widen _ m1 m2 m3 n hm
  | equals m1 m2 m3 => exact alu_widen _ m1 m2 m3 n hm
  | jumpIfTrue m1 m2 => exact jump_widen _ m1 m2 n hm
  | jumpIfFalse m1 m2 => exact jump_widen _ m1 m2 n hm
  | input m1 => exact input_widen m1 n hm
  | output m1 => exact output_widen m1 n hm
  | adjustRelativeBase m1 => exact adjustRelativeBase_widen m1 n hm
  | halt => exact halt_widen n s

theorem State.takeFault_widen (n : Nat) (f : FaultInfo) (hm : s.mem.wf) :
    (s.widen n).takeFault f = (s.takeFault f).widen n := by
  simp only [State.takeFault, State.widen_toEngine, fetch_widen n hm]
  rfl

theorem exec_widen {i : Instr} (n : Nat) (hm : s.mem.wf) (h : exec i s = .next t) : exec i (s.widen n) = .next (t.widen n) := by
  rcases exec_next h with hok | ⟨f, herror, rfl⟩
  · refine exec_of_effect_ok ?_
    rw [effect_widen i n hm, hok]
    rfl
  · rw [← State.takeFault_widen n f hm]
    refine exec_of_effect_error ?_
    rw [effect_widen i n hm, herror]
    rfl

theorem fetchExec_widen (n : Nat) (hm : s.mem.wf) (h : fetchExec s = .next t) : fetchExec (s.widen n) = .next (t.widen n) := by
  have hdecode : fetchDecode (s.widen n).toEngine = fetchDecode s.toEngine := fetchDecode_widen n hm
  cases hd : fetchDecode s.toEngine with
  | ok i =>
    rw [fetchExec_of_fetchDecode hd] at h
    rw [fetchExec_of_fetchDecode (hdecode.trans hd)]
    exact exec_widen n hm h
  | error f =>
    rw [fetchExec_of_error hd] at h
    cases h
    rw [fetchExec_of_error (hdecode.trans hd), State.takeFault_widen n f hm]

theorem engineTurn_widen (n : Nat) (hm : s.mem.wf) (h : s.engineTurn = .next t) :
    (s.widen n).engineTurn = .next (t.widen n) := by
  rcases engineTurn_cases s with ⟨hidle, hwhy⟩ | ⟨hgo, hrunnable⟩
  · cases hidle.symm.trans h
    rcases hwhy with hs | hs | ⟨hs, hq⟩
    · exact engineTurn_of_stopped (s := s.widen n) (.inl hs)
    · exact engineTurn_of_stopped (s := s.widen n) (.inr hs)
    · exact engineTurn_of_blocked_nil (s := s.widen n) hs hq
  · rw [engineTurn_of_runnable (s := s.widen n) hrunnable]
    exact fetchExec_widen n hm (hgo.symm.trans h)

/-! ## The canonical form -/

theorem Completion.mem_wf {i : Instr} (h : Completion i s t) (hm : s.mem.wf) : t.mem.wf := by
  rcases h.mem_cases with hmem | ⟨-, -, dest, r, -, -, hmem⟩
  · rw [hmem]
    exact hm
  · rw [hmem]
    exact Memory.wf_write dest r hm

theorem engineTurn_mem_wf (h : s.engineTurn = .next t) (hm : s.mem.wf) : t.mem.wf := by
  rcases engineTurn_cases s with ⟨hidle, -⟩ | ⟨hgo, -⟩
  · rw [hidle] at h
    cases h
    exact hm
  · rcases fetchExec_cases (hgo ▸ h) with ⟨i, -, hok⟩ | ⟨f, -, rfl⟩
    · exact (effect_completion hok).mem_wf hm
    · exact hm

end Step

end Sys2Proof.Machine

namespace Sys2Proof

open Machine

/-- Settles O39: a step commutes with widening the extent, so the wider machine's next state is the next state widened. -/
theorem extentIsUnobservable : Obligations.ExtentIsUnobservable := by
  intro s t n hm hle hhost hstep
  obtain ⟨hturn, hst⟩ := step_host_next hhost hstep
  refine ⟨max n t.mem.extent, engineTurn_mem_wf hturn hm, le_max_right _ _, ?_⟩
  rw [← State.widen_eq hle, step_of_host (s := s.widen n) hhost hst]
  exact engineTurn_widen n hm hturn

end Sys2Proof
end

section
/-!
PROOFS. The family 'other', the step and `run` (44_engine_run.md sections 2 to 4): one iteration of `run`, its loop by induction over
the fuel, and the machine's steps that reach what it returns.
-/

namespace Sys2Proof.Machine

variable {s t u : State}

/-! ## `run` and the ring's step by the execution state -/

theorem State.run_of_runnable (fuel : Nat) (h : s.Runnable) : s.run fuel = State.runLoop fuel s := by
  rcases h with hs | ⟨hs, hq⟩
  · simp only [State.run, hs]
  · simp only [State.run, hs, if_neg hq]

theorem State.run_of_faulted (fuel : Nat) (h : s.st = .faulted) : s.run fuel = some (.fault s.flt, s) := by
  simp only [State.run, h]

/-- A seeded ring steps by one iteration of `run` and Drive's bookkeeping. -/
theorem step_of_seeded (hw : s.wiring = .ring) (ho : s.ost = .seeded) (h : s.engineTurn = .next t) :
    step s = .next t.driveAfter := by
  simp only [step, hw, State.ringStep, ho, h]

/-! ## Faults of fetch and decode -/

theorem fetch_of_cap_le {e : Engine} (h : e.cap ≤ e.ip) : fetch e = .error (.memoryCapacityExceeded e.ip) := by
  rw [fetch, memRead_error_iff, addrCheck_of_cap_le (by omega) (by omega), Int.toNat_natCast]

theorem fetchDecode_of_fetch_error {e : Engine} {f : FaultInfo} (h : fetch e = .error f) : fetchDecode e = .error f := by
  rw [fetchDecode, h, error_bind]

theorem fetchDecode_of_decode_error {e : Engine} {w : Word} {d : DecodeFault} (h : fetch e = .ok w) (hd : decode w = .error d) :
    fetchDecode e = .error (FaultInfo.ofDecode d) := by
  simp only [fetchDecode, h, ok_bind, hd]

/-- The record of a fault holds what the fetch answered (60_exceptions.md R165). -/
theorem State.takeFault_eq {f : FaultInfo} {word : Option Word} (h : (fetch s.toEngine).toOption = word) :
    s.takeFault f = { s with st := .faulted, flt := some { info := f, faultIp := s.ip, word := word } } := by
  rw [State.takeFault, h]

/-- A Ready engine that a host drives takes the fault its fetch or decode meets. -/
theorem step_of_fetchDecode_error {f : FaultInfo} {word : Option Word} (hw : s.wiring = .host) (hs : s.st = .ready)
    (hd : fetchDecode s.toEngine = .error f) (hword : (fetch s.toEngine).toOption = word) :
    step s = .next { s with st := .faulted, flt := some { info := f, faultIp := s.ip, word := word } } := by
  rw [step_of_host hw (by simp [hs]), engineTurn_of_runnable (.inl hs), fetchExec_of_error hd, State.takeFault_eq hword]

/-! ## A pending Input with a value waiting -/

theorem fetchExec_of_pendingInput_cons {v : Word} {rest : List Word} (hp : s.toEngine.PendingInput) (hq : s.inq = v :: rest) :
    ∃ m1 dest, fetchDecode s.toEngine = .ok (.input m1) ∧ resolveDestination s.toEngine 1 m1 = .ok dest ∧
      fetchExec s = .next { s with mem := s.mem.write dest v, inq := rest, ip := s.ip + 2, st := .ready } := by
  obtain ⟨m1, dest, n, hdecode, hdest, hnext⟩ := hp
  obtain ⟨-, hip⟩ := nextIp_ok_iff.1 hnext
  refine ⟨m1, dest, hdecode, hdest, ?_⟩
  rw [fetchExec_of_fetchDecode hdecode, exec_input_cons hdest hq hip]

/-! ## The loop of `run`, one iteration -/

/-- `run` answers Ok just with `st` Halted or BlockedOnInput, and the record just with `st` Faulted (44_engine_run.md R112). -/
def State.Answers (t : State) (r : RunResult) : Prop :=
  (r = .ok ∧ (t.st = .halted ∨ t.st = .blockedOnInput)) ∨ (r = .fault t.flt ∧ t.st = .faulted)

theorem State.runLoop_of_ready (k : Nat) (h : fetchExec s = .next u) (hu : u.st = .ready) :
    State.runLoop (k + 1) s = State.runLoop k u := by
  simp only [State.runLoop, h, hu]

theorem State.runLoop_of_not_ready (h : fetchExec s = .next u) (hu : u.st ≠ .ready) :
    ∃ r, u.Answers r ∧ ∀ k, State.runLoop (k + 1) s = some (r, u) := by
  cases hs : u.st with
  | ready => exact absurd hs hu
  | blockedOnInput => exact ⟨.ok, .inl ⟨rfl, .inr hs⟩, fun k => by simp only [State.runLoop, h, hs]⟩
  | halted => exact ⟨.ok, .inl ⟨rfl, .inl hs⟩, fun k => by simp only [State.runLoop, h, hs]⟩
  | faulted => exact ⟨.fault u.flt, .inr ⟨rfl, hs⟩, fun k => by simp only [State.runLoop, h, hs]⟩

/-- A loop that returns has executed once; then it goes round again from a Ready engine, or returns there. -/
theorem State.runLoop_cases {k : Nat} {r : RunResult} (h : State.runLoop (k + 1) s = some (r, t)) :
    ∃ u, fetchExec s = .next u ∧ ((u.st = .ready ∧ State.runLoop k u = some (r, t)) ∨
      (u = t ∧ t.Answers r ∧ ∀ j, State.runLoop (j + 1) s = some (r, t))) := by
  obtain ⟨u, hu⟩ := fetchExec_next s
  refine ⟨u, hu, ?_⟩
  by_cases hs : u.st = .ready
  · rw [State.runLoop_of_ready k hu hs] at h
    exact .inl ⟨hs, h⟩
  · obtain ⟨r', hr, hloop⟩ := State.runLoop_of_not_ready hu hs
    cases (hloop k).symm.trans h
    exact .inr ⟨rfl, hr, hloop⟩

/-- `run` returns at once, or goes into its loop. -/
theorem State.run_cases {fuel : Nat} {r : RunResult} (h : s.run fuel = some (r, t)) :
    (t = s ∧ s.Answers r ∧ s.engineTurn = .next s ∧ ∀ k, s.run k = some (r, s)) ∨
      (s.Runnable ∧ State.runLoop fuel s = some (r, t)) := by
  rcases engineTurn_cases s with ⟨hidle, hwhy⟩ | ⟨-, hgo⟩
  · rcases hwhy with hs | hs | ⟨hs, hq⟩
    · cases (State.run_of_halted fuel hs).symm.trans h
      exact .inl ⟨rfl, .inl ⟨rfl, .inl hs⟩, hidle, fun k => State.run_of_halted k hs⟩
    · cases (State.run_of_faulted fuel hs).symm.trans h
      exact .inl ⟨rfl, .inr ⟨rfl, hs⟩, hidle, fun k => State.run_of_faulted k hs⟩
    · cases (State.run_of_blocked_nil fuel hs hq).symm.trans h
      exact .inl ⟨rfl, .inl ⟨rfl, .inr hs⟩, hidle, fun k => State.run_of_blocked_nil k hs hq⟩
  · rw [State.run_of_runnable fuel hgo] at h
    exact .inr ⟨hgo, h⟩

/-! ## What `run` returns -/

theorem State.runLoop_answers {fuel : Nat} {r : RunResult} (h : State.runLoop fuel s = some (r, t)) : t.Answers r := by
  induction fuel generalizing s with
  | zero => cases h
  | succ k ih =>
    obtain ⟨u, -, ⟨-, hloop⟩ | ⟨-, hr, -⟩⟩ := State.runLoop_cases h
    · exact ih hloop
    · exact hr

theorem State.run_answers {fuel : Nat} {r : RunResult} (h : s.run fuel = some (r, t)) : t.Answers r := by
  rcases State.run_cases h with ⟨rfl, hr, -⟩ | ⟨-, hloop⟩
  · exact hr
  · exact State.runLoop_answers hloop

theorem State.runLoop_mono {fuel : Nat} {r : RunResult} (more : Nat) (h : State.runLoop fuel s = some (r, t)) :
    State.runLoop (fuel + more) s = some (r, t) := by
  induction fuel generalizing s with
  | zero => cases h
  | succ k ih =>
    rw [Nat.succ_add]
    obtain ⟨u, hu, ⟨hs, hloop⟩ | ⟨-, -, hloop⟩⟩ := State.runLoop_cases h
    · rw [State.runLoop_of_ready _ hu hs]
      exact ih hloop
    · exact hloop (k + more)

theorem State.run_mono {fuel : Nat} {r : RunResult} (more : Nat) (h : s.run fuel = some (r, t)) :
    s.run (fuel + more) = some (r, t) := by
  rcases State.run_cases h with ⟨rfl, -, -, hrun⟩ | ⟨hgo, hloop⟩
  · exact hrun (fuel + more)
  · rw [State.run_of_runnable _ hgo]
    exact State.runLoop_mono more hloop

/-! ## The queues over a run -/

/-- From `s` to `t` the input queue has lost a front part and the output queue has gained a back part (44_engine_run.md section 3). -/
def State.Consumed (s t : State) : Prop := (∃ popped, s.inq = popped ++ t.inq) ∧ ∃ emitted, t.outq = s.outq ++ emitted

theorem State.Consumed.of_eq (hq : t.inq = s.inq) (ho : t.outq = s.outq) : s.Consumed t :=
  ⟨⟨[], hq.symm⟩, [], by rw [ho, List.append_nil]⟩

theorem State.Consumed.trans (h : s.Consumed t) (h' : t.Consumed u) : s.Consumed u := by
  obtain ⟨⟨p, hp⟩, e, he⟩ := h
  obtain ⟨⟨p', hp'⟩, e', he'⟩ := h'
  exact ⟨⟨p ++ p', by rw [hp, hp', List.append_assoc]⟩, e ++ e', by rw [he', he, List.append_assoc]⟩

theorem Completion.consumed {i : Instr} (h : Completion i s t) (hhost : s.wiring = .host) : s.Consumed t := by
  cases h with
  | stored => exact .of_eq rfl rfl
  | received m1 dest v rest _ _ _ hq => exact ⟨⟨[v], hq⟩, [], by simp⟩
  | suspended => exact .of_eq rfl rfl
  | sent m1 a =>
    rw [State.pushOut_host s a hhost]
    exact ⟨⟨[], rfl⟩, [a], rfl⟩
  | jumped => exact .of_eq rfl rfl
  | rebased => exact .of_eq rfl rfl
  | stopped => exact .of_eq rfl rfl

theorem fetchExec_consumed (h : fetchExec s = .next t) (hhost : s.wiring = .host) : s.Consumed t := by
  rcases fetchExec_cases h with ⟨i, -, hok⟩ | ⟨f, -, rfl⟩
  · exact (effect_completion hok).consumed hhost
  · exact .of_eq rfl rfl

theorem fetchExec_wiring (h : fetchExec s = .next t) : t.wiring = s.wiring := by
  obtain ⟨-, -, hw, -⟩ := fetchExec_others h
  exact hw

theorem State.runLoop_consumed {fuel : Nat} {r : RunResult} (hhost : s.wiring = .host)
    (h : State.runLoop fuel s = some (r, t)) : s.Consumed t := by
  induction fuel generalizing s with
  | zero => cases h
  | succ k ih =>
    obtain ⟨u, hu, ⟨-, hloop⟩ | ⟨rfl, -⟩⟩ := State.runLoop_cases h
    · exact (fetchExec_consumed hu hhost).trans (ih ((fetchExec_wiring hu).trans hhost) hloop)
    · exact fetchExec_consumed hu hhost

/-! ## The steps that reach what the loop returns -/

/-- `run` calls are made on the machine: by a host, or by Drive on a seeded ring (44_engine_run.md R120, 45_orchestrator.md R134). -/
def State.Driven (s : State) : Prop := s.wiring = .host ∨ (s.wiring = .ring ∧ s.ost = .seeded)

theorem State.driveAfter_of_ready (h : s.st = .ready) : s.driveAfter = s := by
  simp only [State.driveAfter, h]

theorem fetchExec_driven (h : fetchExec s = .next t) (hs : s.Driven) : t.Driven := by
  obtain ⟨-, -, hw, ho⟩ := fetchExec_others h
  rwa [State.Driven, hw, ho]

/-- While the run goes on, an iteration of its loop is a step of the machine, whoever drives it. -/
theorem step_of_fetchExec_ready (hd : s.Driven) (hgo : s.Runnable) (h : fetchExec s = .next t) (ht : t.st = .ready) :
    step s = .next t := by
  have hturn : s.engineTurn = .next t := (engineTurn_of_runnable hgo).trans h
  rcases hd with hw | ⟨hw, ho⟩
  · rw [step_of_host hw hgo.st_ne_faulted, hturn]
  · rw [step_of_seeded hw ho hturn, State.driveAfter_of_ready ht]

theorem core_run_snoc {n : Nat} (h : Host.Core.run Sys2Proof.core n s = .next t) (ht : step t = .next u) :
    Host.Core.run Sys2Proof.core (n + 1) s = .next u := by
  rw [core_run_add n 1 h, core_run_next 0 ht, core_run_zero]

theorem core_run_cons {n : Nat} {o : Host.Outcome State Fault Refusal} (h : step s = .next t)
    (ht : Host.Core.run Sys2Proof.core n t = o) : Host.Core.run Sys2Proof.core (n + 1) s = o :=
  (core_run_next n h).trans ht

/-- Steps of the machine reach the last iteration of a loop that returns. -/
theorem State.runLoop_reaches {fuel : Nat} {r : RunResult} (hd : s.Driven) (hgo : s.Runnable)
    (h : State.runLoop fuel s = some (r, t)) :
    ∃ n u, Host.Core.run Sys2Proof.core n s = .next u ∧ u.wiring = s.wiring ∧ u.ost = s.ost ∧ u.Runnable ∧
      fetchExec u = .next t := by
  induction fuel generalizing s with
  | zero => cases h
  | succ k ih =>
    obtain ⟨u, hu, ⟨hs, hloop⟩ | ⟨rfl, -⟩⟩ := State.runLoop_cases h
    · obtain ⟨-, -, hw, ho⟩ := fetchExec_others hu
      obtain ⟨n, v, hrun, hvw, hvo, hv⟩ := ih (fetchExec_driven hu hd) (.inl hs) hloop
      exact ⟨n + 1, v, core_run_cons (step_of_fetchExec_ready hd hgo hu hs) hrun, hvw.trans hw, hvo.trans ho, hv⟩
    · exact ⟨0, s, core_run_zero s, rfl, rfl, hgo, hu⟩

end Sys2Proof.Machine

namespace Sys2Proof

open Machine

/-- Settles O12: the step is one iteration of `run`, and a runnable engine executes the instruction it decodes. -/
theorem stepRunsDecodedInstruction : Obligations.StepRunsDecodedInstruction := by
  intro s w i hw hi hgo
  have hturn : s.engineTurn = exec i s :=
    (engineTurn_of_runnable hgo).trans (fetchExec_of_fetchDecode (fetchDecode_of hw hi))
  refine ⟨fun hhost => ?host, fun hring ho t ht => ?ring⟩
  case host => exact (step_of_host hhost (State.Runnable.st_ne_faulted hgo)).trans hturn
  case ring => exact step_of_seeded hring ho (hturn.trans ht)

/-- Settles O13: the fetch fails at CAP and leaves no word; a decode fault leaves the word that was fetched. -/
theorem fetchAndDecodeFaultsAreTaken : Obligations.FetchAndDecodeFaultsAreTaken := by
  intro s hhost hs
  refine ⟨fun hcap => ?fetch, fun w hw hd => ?opcode, fun w k d hw hd => ?mode⟩
  case fetch =>
    have hfetch := fetch_of_cap_le hcap
    exact step_of_fetchDecode_error hhost hs (fetchDecode_of_fetch_error hfetch) (by rw [hfetch]; rfl)
  case opcode =>
    exact step_of_fetchDecode_error hhost hs (fetchDecode_of_decode_error hw hd) (by rw [fetch, hw]; rfl)
  case mode =>
    exact step_of_fetchDecode_error hhost hs (fetchDecode_of_decode_error hw hd) (by rw [fetch, hw]; rfl)

/-- Settles O40: an iteration leaves an engine that does not execute as it is, and by the invariant a blocked one with input
completes its Input. -/
theorem executionStateMachine : Obligations.ExecutionStateMachine := by
  intro s hinv
  obtain ⟨t, ht⟩ := engineTurn_next s
  refine ⟨t, ht, fun hs hq => ?blockedEmpty, fun hs hq => ?blockedInput, fun hs => ?halted, fun hs => ?faulted⟩
  case blockedEmpty =>
    cases (engineTurn_of_blocked_nil hs hq).symm.trans ht
    rfl
  case blockedInput =>
    obtain ⟨v, rest, hcons⟩ := List.exists_cons_of_ne_nil hq
    obtain ⟨m1, dest, -, -, hfetch⟩ := fetchExec_of_pendingInput_cons (hinv.blocked hs) hcons
    rw [engineTurn_of_runnable (.inr ⟨hs, hq⟩), hfetch] at ht
    cases ht
    rfl
  case halted =>
    cases (engineTurn_of_stopped (.inl hs)).symm.trans ht
    rfl
  case faulted =>
    cases (engineTurn_of_stopped (.inr hs)).symm.trans ht
    rfl

/-- Settles O43: `run` and the step look at `st` first and report the record. -/
theorem runOnFaultedReportsAgain : Obligations.RunOnFaultedReportsAgain := by
  intro fuel s r hs hflt
  refine ⟨by rw [State.run_of_faulted fuel hs, hflt], fun hhost => ?_⟩
  simp only [step, hhost, State.hostStep, hs, State.reportFault, hflt]

/-- Settles O44: by the invariant the loop's first iteration completes the pending Input and leaves the engine Ready. -/
theorem resumeCompletesTheInput : Obligations.ResumeCompletesTheInput := by
  intro fuel s v rest hinv hs hq
  obtain ⟨m1, dest, hdecode, hdest, hfetch⟩ := fetchExec_of_pendingInput_cons (hinv.blocked hs) hq
  refine ⟨m1, dest, hdecode, hdest, ?_⟩
  rw [State.run_of_runnable _ (.inr ⟨hs, by simp [hq]⟩), State.runLoop_of_ready fuel hfetch rfl]

/-- Settles O45: `run` answers by the `st` of the state it returns in. -/
theorem runResultAgreesWithState : Obligations.RunResultAgreesWithState := fun _ _ _ _ h => State.run_answers h

/-- Settles O46: each iteration pops at most the front and appends at most one value at the back, and these compose. -/
theorem runPopsFrontAndAppendsBack : Obligations.RunPopsFrontAndAppendsBack := by
  intro fuel s t r hhost h
  rcases State.run_cases h with ⟨rfl, -⟩ | ⟨-, hloop⟩
  · exact State.Consumed.of_eq rfl rfl
  · exact State.runLoop_consumed hhost hloop

/-- Settles O47: the machine steps through the iterations of the loop; the last one is a step too. -/
theorem runIsIteratedStep : Obligations.RunIsIteratedStep := by
  intro fuel s t r hhost h
  refine ⟨?_, fun more => State.run_mono more h⟩
  rcases State.run_cases h with ⟨rfl, -⟩ | ⟨hgo, hloop⟩
  · exact ⟨0, core_run_zero t⟩
  · obtain ⟨n, u, hrun, hw, -, hu, hlast⟩ := State.runLoop_reaches (.inl hhost) hgo hloop
    have hstep : step u = .next t := by
      rw [step_of_host (hw.trans hhost) hu.st_ne_faulted, engineTurn_of_runnable hu, hlast]
    exact ⟨n + 1, core_run_snoc hrun hstep⟩

end Sys2Proof
end

section
/-!
PROOFS. The family 'other', the ring's stations (45_orchestrator.md section 1): which engines and queues a step reaches.
-/

namespace Sys2Proof.Machine

variable {s t u : State}

/-! ## The engines in index order -/

/-- The engines in index order: `E[0]`, `E[1]`, ... (45_orchestrator.md R130). -/
def State.engines (s : State) : List Engine := s.stations.map (·.toEngine)

theorem State.engines_of_built (h : ∀ f, s.wiring ≠ .unbuilt f) :
    s.engines = s.before.map (·.toEngine) ++ s.toEngine :: s.after.map (·.toEngine) := by
  simp [State.engines, State.stations_of_built h]

theorem State.queues_of_built (h : ∀ f, s.wiring ≠ .unbuilt f) :
    s.queues = s.before.map (·.inq) ++ s.inq :: s.after.map (·.inq) := by
  simp [State.queues, State.stations_of_built h]

theorem set_at_length {α : Type} (l r : List α) (x y : α) : (l ++ x :: r).set l.length y = l ++ y :: r := by
  rw [List.set_append_right _ _ (le_refl _), Nat.sub_self, List.set_cons_zero]

/-- One iteration of `run` reaches no engine but the current one. -/
theorem engineTurn_engines (h : s.engineTurn = .next u) (hb : ∀ f, s.wiring ≠ .unbuilt f) :
    u.engines = s.engines.set s.index u.toEngine := by
  obtain ⟨hbefore, hafter, hw, -⟩ := engineTurn_others h
  have hset := set_at_length (s.before.map (·.toEngine)) (s.after.map (·.toEngine)) s.toEngine u.toEngine
  rw [List.length_map] at hset
  rw [State.engines_of_built (by rwa [hw]), State.engines_of_built hb, hbefore, hafter]
  exact hset.symm

/-- What holds of every engine still does after an iteration of `run` if it holds of the current one. -/
theorem engineTurn_forall {P : Engine → Prop} (h : s.engineTurn = .next u) (hb : ∀ f, s.wiring ≠ .unbuilt f)
    (hs : ∀ x ∈ s.stations, P x.toEngine) (hu : P u.toEngine) : ∀ x ∈ u.stations, P x.toEngine := by
  have hall : ∀ e ∈ u.engines, P e := by
    rw [engineTurn_engines h hb]
    intro e he
    rcases List.mem_or_eq_of_mem_set he with hmem | rfl
    · exact List.forall_mem_map.2 hs e hmem
    · exact hu
  exact List.forall_mem_map.1 hall

theorem State.toStation_mem_stations (hb : ∀ f, s.wiring ≠ .unbuilt f) : s.toStation ∈ s.stations := by
  simp [State.stations_of_built hb]

theorem State.getElem?_stations_index (hb : ∀ f, s.wiring ≠ .unbuilt f) : s.stations[s.index]? = some s.toStation := by
  simp [State.stations_of_built hb, State.index]

/-- A step is one iteration of the current engine's `run`, or nothing in a ring that is Done; Drive's bookkeeping moves no station. -/
theorem step_stations (h : step s = .next t) : t = s ∨ ∃ u, s.engineTurn = .next u ∧ t.stations = u.stations := by
  cases hw : s.wiring with
  | host => exact .inr ⟨t, (step_host_next hw h).1, rfl⟩
  | ring =>
    rcases step_ring_cases hw h with ⟨-, u, hu, rfl⟩ | ⟨-, rfl⟩
    · exact .inr ⟨u, hu, u.driveAfter_keeps.1⟩
    · exact .inl rfl
  | unbuilt f => exact absurd hw (built_of_step h f)

theorem step_engines_of_ne {j : Nat} (h : step s = .next t) (hj : j ≠ s.index) : t.engines[j]? = s.engines[j]? := by
  rcases step_stations h with rfl | ⟨u, hu, hstations⟩
  · rfl
  · have hengines : t.engines = u.engines := congrArg (List.map _) hstations
    rw [hengines, engineTurn_engines hu (built_of_step h), List.getElem?_set_ne hj.symm]

/-- If the current engine has stopped, a step changes no station. -/
theorem step_stations_of_stopped (h : step s = .next t) (hs : s.st = .halted ∨ s.st = .faulted) :
    t.stations = s.stations := by
  rcases step_stations h with rfl | ⟨u, hu, hstations⟩
  · rfl
  · cases (engineTurn_of_stopped hs).symm.trans hu
    exact hstations

/-! ## The queues in index order -/

theorem State.queues_eq_set (hb : ∀ f, s.wiring ≠ .unbuilt f) (hw : u.wiring = s.wiring) (hbefore : u.before = s.before)
    (hafter : u.after = s.after) : u.queues = s.queues.set s.index u.inq := by
  have hset := set_at_length (s.before.map (·.inq)) (s.after.map (·.inq)) s.inq u.inq
  rw [List.length_map] at hset
  rw [State.queues_of_built (by rwa [hw]), State.queues_of_built hb, hbefore, hafter]
  exact hset.symm

/-- An instruction changes at most the current engine's own queue, or appends one value to the next engine's. -/
def State.FeedsAtMostNext (s u : State) : Prop :=
  (∃ q, u.queues = s.queues.set s.index q) ∨
    ∃ a, u.queues = s.queues.modify ((s.index + 1) % s.stations.length) (fun q => q ++ [a])

theorem State.FeedsAtMostNext.of_eq (hring : s.wiring = .ring) (hw : u.wiring = s.wiring) (hbefore : u.before = s.before)
    (hafter : u.after = s.after) : s.FeedsAtMostNext u :=
  .inl ⟨u.inq, State.queues_eq_set (by simp [hring]) hw hbefore hafter⟩

theorem Completion.feedsAtMostNext {i : Instr} (h : Completion i s u) (hring : s.wiring = .ring) : s.FeedsAtMostNext u := by
  cases h with
  | sent m1 a => exact .inr ⟨a, by rw [State.queues_setIp_setSt, State.queues_pushOut_of_ring s a hring]⟩
  | stored => exact .of_eq hring rfl rfl rfl
  | received => exact .of_eq hring rfl rfl rfl
  | suspended => exact .of_eq hring rfl rfl rfl
  | jumped => exact .of_eq hring rfl rfl rfl
  | rebased => exact .of_eq hring rfl rfl rfl
  | stopped => exact .of_eq hring rfl rfl rfl

theorem engineTurn_feedsAtMostNext (h : s.engineTurn = .next u) (hring : s.wiring = .ring) : s.FeedsAtMostNext u := by
  rcases engineTurn_cases s with ⟨hidle, -⟩ | ⟨hgo, -⟩
  · cases hidle.symm.trans h
    exact .of_eq hring rfl rfl rfl
  · rcases fetchExec_cases (hgo ▸ h) with ⟨i, -, hok⟩ | ⟨f, -, rfl⟩
    · exact (effect_completion hok).feedsAtMostNext hring
    · exact .of_eq hring rfl rfl rfl

theorem State.FeedsAtMostNext.getElem?_of_ne {j : Nat} (h : s.FeedsAtMostNext u) (hj : j ≠ s.index)
    (hnext : j ≠ (s.index + 1) % s.stations.length) : u.queues[j]? = s.queues[j]? := by
  obtain ⟨q, hq⟩ | ⟨a, ha⟩ := h
  · rw [hq, List.getElem?_set_ne hj.symm]
  · rw [ha, List.getElem?_modify_ne _ _ hnext.symm]

theorem State.FeedsAtMostNext.getElem?_append {j : Nat} {q : List Word} (h : s.FeedsAtMostNext u) (hj : j ≠ s.index)
    (hq : s.queues[j]? = some q) : ∃ vs, u.queues[j]? = some (q ++ vs) ∧ vs.length ≤ 1 := by
  by_cases hnext : j = (s.index + 1) % s.stations.length
  · obtain ⟨q', hq'⟩ | ⟨a, ha⟩ := h
    · exact ⟨[], by rw [hq', List.getElem?_set_ne hj.symm, hq, List.append_nil], by simp⟩
    · refine ⟨[a], ?_, by simp⟩
      rw [ha, ← hnext, List.getElem?_modify_eq, hq]
      rfl
  · exact ⟨[], by rw [h.getElem?_of_ne hj hnext, hq, List.append_nil], by simp⟩

theorem step_feedsAtMostNext (h : step s = .next t) (hring : s.wiring = .ring) : s.FeedsAtMostNext t := by
  rcases step_stations h with rfl | ⟨u, hu, hstations⟩
  · exact .of_eq hring rfl rfl rfl
  · have hqueues : t.queues = u.queues := congrArg (List.map _) hstations
    rw [State.FeedsAtMostNext, hqueues]
    exact engineTurn_feedsAtMostNext hu hring

end Sys2Proof.Machine

namespace Sys2Proof

open Machine

/-- Settles O51: only the current engine is reached by a step, and it is not if it has stopped. -/
theorem stoppedEnginesNeverChange : Obligations.StoppedEnginesNeverChange := by
  intro s t j x hstep hx hstopped
  by_cases hj : j = s.index
  · subst hj
    have hcurrent := (State.getElem?_stations_index (built_of_step hstep)).symm.trans hx
    cases hcurrent
    exact ⟨s.toStation, by rw [step_stations_of_stopped hstep hstopped, hx], rfl⟩
  · have hengine : t.engines[j]? = some x.toEngine := by
      rw [step_engines_of_ne hstep hj, State.engines, List.getElem?_map, hx, Option.map_some]
    rw [State.engines, List.getElem?_map] at hengine
    exact Option.map_eq_some_iff.1 hengine

/-- Settles O52: the engines by the current index, the queues by it and the next one. -/
theorem stepReachesOnlyItsStation : Obligations.StepReachesOnlyItsStation := by
  intro s t hstep hring
  have hqueues := step_feedsAtMostNext hstep hring
  exact ⟨fun j hj => step_engines_of_ne hstep hj, fun j hj hnext => hqueues.getElem?_of_ne hj hnext,
    fun j q hj hq => hqueues.getElem?_append hj hq⟩

end Sys2Proof
end

section
/-!
PROOFS. The family 'other', the invariant (10_state.md section 7): the engine's over one iteration of `run`, the machine's over one step,
and both at construction.
-/

namespace Sys2Proof.Machine

variable {s t u : State}

/-! ## The engine's invariant -/

theorem Completion.extent_le_cap {i : Instr} (h : Completion i s t) (hs : s.mem.extent ≤ s.cap) : t.mem.extent ≤ s.cap := by
  rcases h.mem_cases with hmem | ⟨k, m, dest, r, -, hdest, hmem⟩
  · rw [hmem]
    exact hs
  · rw [hmem, Memory.write_extent]
    exact max_le hs (resolveDestination_ok hdest).2

theorem Completion.ip_le {i : Instr} (h : Completion i s t) (hs : (s.ip : Int) ≤ intMax) : (t.ip : Int) ≤ intMax := by
  cases h with
  | stored _ _ _ _ _ _ hip => exact hip
  | received _ _ _ _ _ _ hip => exact hip
  | suspended => exact hs
  | sent _ _ _ hip => exact hip
  | jumped _ _ _ _ hip => exact hip
  | rebased _ _ _ hip => exact hip
  | stopped _ hip => exact hip

/-- An instruction that suspends is a pending Input: its checks have passed and it has written `st` alone. -/
theorem Completion.pendingInput {i : Instr} (h : Completion i s t) (hi : fetchDecode s.toEngine = .ok i)
    (ht : t.st = .blockedOnInput) : t.toEngine.PendingInput := by
  cases h with
  | suspended m1 dest hinput hdest hip => exact ⟨m1, dest, s.ip + 2, hinput ▸ hi, hdest, nextIp_ok (e := s.toEngine) hip⟩
  | stored => cases ht
  | received => cases ht
  | sent => cases ht
  | jumped => cases ht
  | rebased => cases ht
  | stopped => cases ht

theorem Engine.cap_congr {e e' : Engine} (h : e'.memCapacity = e.memCapacity) : e'.cap = e.cap := by
  rw [Engine.cap, Engine.cap, h]

theorem Engine.Inv.flt_eq_none {e : Engine} (h : e.Inv) (hs : e.st ≠ .faulted) : e.flt = none := by
  by_contra hflt
  exact hs (h.record.2 hflt)

theorem Engine.Inv.takeFault {f : FaultInfo} (h : s.toEngine.Inv) (hf : f ≠ .programParseError) :
    (s.takeFault f).toEngine.Inv where
  memory := h.memory
  capacity := h.capacity
  extent := h.extent
  ip := h.ip
  record := by simp
  blocked := by simp
  cause := by simpa using hf

theorem Engine.Inv.effect {i : Instr} (h : s.toEngine.Inv) (hs : s.st ≠ .faulted) (hi : fetchDecode s.toEngine = .ok i)
    (hok : effect i s = .ok t) : t.toEngine.Inv := by
  have hc := effect_completion hok
  have hcap : t.cap = s.cap := Engine.cap_congr hc.memCapacity
  have hflt : t.flt = none := (effect_ok_st hok).1.trans (h.flt_eq_none hs)
  exact {
    memory := hc.mem_wf h.memory
    capacity := hcap ▸ h.capacity
    extent := hcap ▸ hc.extent_le_cap h.extent
    ip := hc.ip_le h.ip
    record := by simp [hflt, effect_ok_st_ne_faulted hok]
    blocked := hc.pendingInput hi
    cause := by simp [hflt] }

/-- One iteration of `run` keeps the invariant of its engine. -/
theorem Engine.Inv.engineTurn (h : s.toEngine.Inv) (hturn : s.engineTurn = .next t) : t.toEngine.Inv := by
  rcases engineTurn_cases s with ⟨hidle, -⟩ | ⟨hgo, hrunnable⟩
  · cases hidle.symm.trans hturn
    exact h
  · rcases fetchExec_cases (hgo ▸ hturn) with ⟨i, hi, hok⟩ | ⟨f, hf, rfl⟩
    · exact h.effect (State.Runnable.st_ne_faulted hrunnable) hi hok
    · exact h.takeFault hf

/-! ## The machine's invariant -/

theorem State.allHalted_iff : s.allHalted = true ↔ ∀ x ∈ s.stations, x.st = .halted := by
  simp [State.allHalted]

theorem State.st_of_driveAfter_seeded (h : s.driveAfter.ost = .seeded) : s.st ≠ .faulted := by
  rcases s.driveAfter_ost with ⟨-, hdrive⟩ | ⟨hst, -⟩
  · simp [hdrive] at h
  · exact hst

/-- Only the stop test makes a seeded ring Done (45_orchestrator.md R135). -/
theorem State.st_of_driveAfter_done (hs : s.ost = .seeded) (h : s.driveAfter.ost = .done) : ∀ x ∈ s.stations, x.st = .halted := by
  rcases s.driveAfter_ost with ⟨-, hdrive⟩ | ⟨-, hsame | ⟨hall, -⟩⟩
  · simp [hdrive] at h
  · simp [hsame, hs] at h
  · exact State.allHalted_iff.1 hall

/-- Only a fault of the current engine makes a seeded ring Failed (45_orchestrator.md R137). -/
theorem State.driveAfter_failed (hs : s.ost = .seeded) (h : s.driveAfter.ost = .failed) :
    s.st = .faulted ∧ s.driveAfter = s.setOst .failed := by
  rcases s.driveAfter_ost with hfault | ⟨-, hsame | ⟨-, -, hdrive⟩⟩
  · exact hfault
  · simp [hsame, hs] at h
  · simp [hdrive] at h

/-- A turn keeps the invariant of every engine. -/
theorem State.Inv.engines_engineTurn (h : s.Inv) (hb : ∀ f, s.wiring ≠ .unbuilt f) (hturn : s.engineTurn = .next u) :
    ∀ x ∈ u.stations, x.toEngine.Inv :=
  engineTurn_forall hturn hb h.engines ((h.engines s.toStation (State.toStation_mem_stations hb)).engineTurn hturn)

theorem State.Inv.step_host (h : s.Inv) (hw : s.wiring = .host) (hturn : s.engineTurn = .next t) : t.Inv := by
  obtain ⟨hbefore, hafter, hwiring, -⟩ := engineTurn_others hturn
  obtain ⟨hbnil, hanil⟩ := h.alone hw
  have ht : t.wiring = .host := hwiring.trans hw
  exact {
    engines := h.engines_engineTurn (by simp [hw]) hturn
    alone := fun _ => ⟨by simpa [hbnil] using hbefore, by simpa [hanil] using hafter⟩
    seeded := by simp [ht]
    done := by simp [ht]
    failed := by simp [ht]
    unbuilt := by simp [ht] }

/-- In a seeded ring the turn and Drive's bookkeeping keep the invariant: `ost` follows the `st` of the engines. -/
theorem State.Inv.step_seeded (h : s.Inv) (hw : s.wiring = .ring) (ho : s.ost = .seeded) (hturn : s.engineTurn = .next u) :
    u.driveAfter.Inv := by
  have hb : ∀ f, s.wiring ≠ .unbuilt f := by simp [hw]
  obtain ⟨-, -, hwu, hou⟩ := engineTurn_others hturn
  obtain ⟨hstations, -, hwt, -⟩ := u.driveAfter_keeps
  have ht : u.driveAfter.wiring = .ring := hwt.trans (hwu.trans hw)
  have hkept : u.ost = .seeded := hou.trans ho
  have hengines := h.engines_engineTurn hb hturn
  have hsound : u.st ≠ .faulted → ∀ x ∈ u.stations, x.st ≠ .faulted :=
    engineTurn_forall (P := fun e => e.st ≠ .faulted) hturn hb (h.seeded hw ho)
  exact {
    engines := by rwa [hstations]
    alone := by simp [ht]
    seeded := fun _ hseeded => by rw [hstations]; exact hsound (State.st_of_driveAfter_seeded hseeded)
    done := fun _ hdone => by rw [hstations]; exact State.st_of_driveAfter_done hkept hdone
    failed := fun _ hfailed => by
      obtain ⟨hst, hdrive⟩ := State.driveAfter_failed hkept hfailed
      rw [hdrive]
      exact hst
    unbuilt := by simp [ht] }

/-! ## Construction -/

/-- An engine as `new` leaves it (44_engine_run.md R110). -/
def Engine.fresh (program : List Word) (capacity : Option Nat) : Engine :=
  { mem := Memory.ofProgram program, memCapacity := capacity, ip := 0, rb := 0, st := .ready, flt := none }

theorem Engine.new_of_le {program : List Word} {capacity : Option Nat}
    (h : program.length ≤ capacity.getD Config.unboundedCap) : Engine.new program capacity = .ok (Engine.fresh program capacity) :=
  if_neg (not_lt.2 h)

theorem Engine.new_of_lt {program : List Word} {capacity : Option Nat}
    (h : capacity.getD Config.unboundedCap < program.length) :
    Engine.new program capacity = .error (.memoryCapacityExceeded (program.length - 1)) :=
  if_pos h

theorem Engine.new_ok {program : List Word} {capacity : Option Nat} {e : Engine} (h : Engine.new program capacity = .ok e) :
    program.length ≤ capacity.getD Config.unboundedCap ∧ e = Engine.fresh program capacity := by
  rcases le_or_gt program.length (capacity.getD Config.unboundedCap) with hle | hlt
  · exact ⟨hle, Except.ok.inj (h.symm.trans (Engine.new_of_le hle))⟩
  · cases h.symm.trans (Engine.new_of_lt hlt)

theorem Engine.inv_fresh {program : List Word} {capacity : Option Nat} (hle : program.length ≤ capacity.getD Config.unboundedCap)
    (hcap : capacity.getD Config.unboundedCap ≤ Config.unboundedCap) : (Engine.fresh program capacity).Inv where
  memory := Memory.wf_ofProgram program
  capacity := hcap
  extent := hle
  ip := by simp [Engine.fresh]
  record := by simp [Engine.fresh]
  blocked := by simp [Engine.fresh]
  cause := by simp [Engine.fresh]

theorem State.boot_ok {program : List Word} {capacity : Option Nat} {queue : List Word}
    (h : State.boot program capacity queue = .ok s) :
    ∃ e, Engine.new program capacity = .ok e ∧ s = { State.reset with toEngine := e, inq := queue } := by
  obtain ⟨e, he, h⟩ := bind_ok_iff.1 h
  exact ⟨e, he, (Except.ok.inj h).symm⟩

/-- A host's machine around one engine that meets the invariant. -/
theorem State.inv_boot {e : Engine} (h : e.Inv) (queue : List Word) :
    State.Inv { State.reset with toEngine := e, inq := queue } where
  engines := by simpa [State.stations, State.reset] using h
  alone := fun _ => ⟨rfl, rfl⟩
  seeded := by simp [State.reset]
  done := by simp [State.reset]
  failed := by simp [State.reset]
  unbuilt := by simp [State.reset]

theorem State.seed_stations (e : Engine) (phase0 : Word) (phases : List Word) (f0 : Word) :
    (State.seed e phase0 phases f0).stations =
      { toEngine := e, inq := [phase0, f0] } :: phases.map fun p => { toEngine := e, inq := [p] } := rfl

theorem State.toEngine_of_mem_seed {e : Engine} {phase0 : Word} {phases : List Word} {f0 : Word} {x : Station}
    (h : x ∈ (State.seed e phase0 phases f0).stations) : x.toEngine = e := by
  rw [State.seed_stations] at h
  rcases List.mem_cons.1 h with rfl | h
  · rfl
  · obtain ⟨p, -, rfl⟩ := List.mem_map.1 h
    rfl

/-- A ring seeded with an engine that meets the invariant and has not faulted. -/
theorem State.inv_seed {e : Engine} (h : e.Inv) (hs : e.st ≠ .faulted) (phase0 : Word) (phases : List Word) (f0 : Word) :
    (State.seed e phase0 phases f0).Inv where
  engines := fun _ hx => (State.toEngine_of_mem_seed hx).symm ▸ h
  alone := by simp [State.seed]
  seeded := fun _ _ _ hx => (State.toEngine_of_mem_seed hx).symm ▸ hs
  done := by simp [State.seed]
  failed := by simp [State.seed]
  unbuilt := by simp [State.seed]

theorem State.inv_unbuilt (f : FaultInfo) : (State.unbuilt f).Inv where
  engines := by simp
  alone := by simp [State.unbuilt]
  seeded := by simp [State.unbuilt]
  done := by simp [State.unbuilt]
  failed := by simp [State.unbuilt]
  unbuilt := fun _ _ => rfl

end Sys2Proof.Machine

namespace Sys2Proof

open Machine

/-- Settles O48: a step is a turn of a host's engine, a turn of a seeded ring with Drive's bookkeeping, or nothing. -/
theorem stepKeepsInvariant : Obligations.StepKeepsInvariant := by
  intro s t hinv hstep
  cases hw : s.wiring with
  | host => exact hinv.step_host hw (step_host_next hw hstep).1
  | ring =>
    rcases step_ring_cases hw hstep with ⟨ho, u, hturn, rfl⟩ | ⟨-, rfl⟩
    · exact hinv.step_seeded hw ho hturn
    · exact hinv
  | unbuilt f => exact absurd hw (built_of_step hstep f)

/-- Settles O50: `new` leaves a fresh engine or a fault; boot and Orchestrate put it alone, in a ring, or nowhere. -/
theorem constructedMachinesMeetInvariant : Obligations.ConstructedMachinesMeetInvariant := by
  intro program capacity hcapacity
  have hcap : capacity.getD Config.unboundedCap ≤ Config.unboundedCap := by
    cases capacity with
    | none => exact le_refl _
    | some c => exact hcapacity c rfl
  have hnew (e : Engine) (he : Engine.new program capacity = .ok e) : e.Inv ∧ e.st ≠ .faulted := by
    obtain ⟨hle, rfl⟩ := Engine.new_ok he
    exact ⟨Engine.inv_fresh hle hcap, by simp [Engine.fresh]⟩
  refine ⟨fun e he => (hnew e he).1, fun queue s hs => ?boot, fun phase0 phases f0 => ?orchestrate⟩
  case boot =>
    obtain ⟨e, he, rfl⟩ := State.boot_ok hs
    exact State.inv_boot (hnew e he).1 queue
  case orchestrate =>
    rcases State.orchestrate_cases program capacity phase0 phases f0 with ⟨e, he, hs⟩ | ⟨f, -, hs⟩
    · rw [hs]
      exact State.inv_seed (hnew e he).1 (hnew e he).2 phase0 phases f0
    · rw [hs]
      exact State.inv_unbuilt f

/-- Settles O49: State.reset is what boot leaves for the empty image, no capacity and an empty queue. -/
theorem resetMeetsInvariant : Obligations.ResetMeetsInvariant := by
  obtain ⟨-, hboot, -⟩ := constructedMachinesMeetInvariant [] none (by simp)
  exact hboot [] State.reset rfl

/-- Settles O53: an image that fits is copied into a fresh engine. -/
theorem newLoadsTheProgram : Obligations.NewLoadsTheProgram := by
  refine ⟨⟨rfl, rfl, rfl, rfl, fun a => Memory.read_of_ge (Nat.zero_le a)⟩, fun program capacity => ⟨fun hle => ?_, fun hlt => ?_⟩⟩
  · exact ⟨_, Engine.new_of_le hle, Memory.read_ofProgram program, rfl, rfl, rfl, rfl, rfl, rfl⟩
  · exact Engine.new_of_lt hlt

/-- Settles O54: Orchestrate leaves what `new` decides, the seeded ring or the unbuilt one. -/
theorem orchestrateSeedsTheRing : Obligations.OrchestrateSeedsTheRing := by
  intro program capacity phase0 phases f0
  refine ⟨fun f hf => ?fault, fun e he => ?seed⟩
  case fault =>
    have hs : State.orchestrate program capacity phase0 phases f0 = State.unbuilt f := by simp only [State.orchestrate, hf]
    rw [hs]
    exact ⟨rfl, rfl, rfl⟩
  case seed =>
    have hs : State.orchestrate program capacity phase0 phases f0 = State.seed e phase0 phases f0 := by
      simp only [State.orchestrate, he]
    rw [hs, State.seed_stations]
    exact ⟨by simp [List.replicate_succ, Function.comp_def, List.map_const'], by simp [Function.comp_def], rfl, rfl, rfl, rfl⟩

end Sys2Proof
end

section
/-!
PROOFS. The family 'other', Drive (45_orchestrator.md sections 2 and 3): the order of a round and its stop test, a fault, the ring that
hangs, and Drive as steps of the machine.
-/

namespace Sys2Proof.Machine

variable {s t u : State}

/-! ## Where Drive goes when a `run` returns -/

theorem State.driveAfter_of_returned (h : s.st = .halted ∨ s.st = .blockedOnInput) : s.driveAfter = s.runReturned := by
  rcases h with hs | hs <;> simp only [State.driveAfter, hs]

theorem State.driveAfter_of_faulted (h : s.st = .faulted) : s.driveAfter = s.setOst .failed := by
  simp only [State.driveAfter, h]

theorem State.runReturned_of_nil (h : s.after = []) : s.runReturned = s.endRound := by
  simp only [State.runReturned, h]

/-- Not at the end of a round Drive goes on to the next index (45_orchestrator.md R134). -/
theorem State.runReturned_of_ne_nil (h : s.after ≠ []) :
    s.runReturned.index = s.index + 1 ∧ s.runReturned.ost = s.ost ∧ s.runReturned.wiring = s.wiring ∧
      s.runReturned.after.length + 1 = s.after.length := by
  obtain ⟨x, xs, hx⟩ := List.exists_cons_of_ne_nil h
  simp [State.runReturned, State.index, hx]

theorem State.endRound_of_allHalted (h : s.allHalted = true) : s.endRound = s.setOst .done := if_pos h

theorem State.endRound_of_not_allHalted (h : ¬ s.allHalted = true) : s.endRound = s.toFirst := if_neg h

theorem State.not_allHalted (h : ∃ x ∈ s.stations, x.st ≠ .halted) : ¬ s.allHalted = true := by
  obtain ⟨x, hx, hst⟩ := h
  exact fun hall => hst (State.allHalted_iff.1 hall x hx)

theorem engineTurn_after_length (h : s.engineTurn = .next u) : u.after.length = s.after.length := by
  obtain ⟨-, hafter, -⟩ := engineTurn_others h
  simpa using congrArg List.length hafter

theorem engineTurn_index (h : s.engineTurn = .next u) : u.index = s.index := by
  obtain ⟨hbefore, -⟩ := engineTurn_others h
  simpa [State.index] using congrArg List.length hbefore

theorem engineTurn_after_eq_nil_iff (h : s.engineTurn = .next u) : u.after = [] ↔ s.after = [] := by
  rw [← List.length_eq_zero_iff, engineTurn_after_length h, List.length_eq_zero_iff]

/-! ## A ring's fault -/

/-- In a seeded ring that meets the invariant a faulted turn is a fresh fault: no engine had faulted before it. -/
theorem engineTurn_faulted (hinv : s.Inv) (hring : s.wiring = .ring) (ho : s.ost = .seeded) (h : s.engineTurn = .next u)
    (hu : u.st = .faulted) : ∃ f, u = s.takeFault f := by
  have hs : s.st ≠ .faulted := hinv.seeded hring ho s.toStation (State.toStation_mem_stations (by simp [hring]))
  rcases engineTurn_cases s with ⟨hidle, -⟩ | ⟨hgo, -⟩
  · cases hidle.symm.trans h
    exact absurd hu hs
  · rcases fetchExec_cases (hgo ▸ h) with ⟨i, -, hok⟩ | ⟨f, -, hf⟩
    · exact absurd hu (effect_ok_st_ne_faulted hok)
    · exact ⟨f, hf⟩

theorem step_of_failed {r : FaultRecord} (hring : s.wiring = .ring) (ho : s.ost = .failed) (hr : s.flt = some r) :
    step s = .fault (.driveFault s.index r) := by
  simp only [step, hring, State.ringStep, ho, State.reportFault, hr]

/-! ## The ring that hangs -/

/-- A seeded ring in which every engine is Halted or blocked on an empty queue, and not all are Halted (45_orchestrator.md section 3). -/
structure State.Stuck (s : State) : Prop where
  ring : s.wiring = .ring
  seeded : s.ost = .seeded
  idle : ∀ x ∈ s.stations, x.st = .halted ∨ (x.st = .blockedOnInput ∧ x.inq = [])
  waiting : ∃ x ∈ s.stations, x.st ≠ .halted

theorem State.Stuck.current (h : s.Stuck) : s.st = .halted ∨ (s.st = .blockedOnInput ∧ s.inq = []) :=
  h.idle s.toStation (State.toStation_mem_stations (by simp [h.ring]))

theorem State.Stuck.engineTurn (h : s.Stuck) : s.engineTurn = .next s := by
  rcases h.current with hs | ⟨hs, hq⟩
  · exact engineTurn_of_stopped (.inl hs)
  · exact engineTurn_of_blocked_nil hs hq

theorem State.Stuck.driveAfter_ost (h : s.Stuck) : s.driveAfter.ost = .seeded := by
  rcases State.driveAfter_ost s with ⟨hfault, -⟩ | ⟨-, hsame | ⟨hall, -⟩⟩
  · rcases h.current with hs | ⟨hs, -⟩ <;> simp [hs] at hfault
  · exact hsame.trans h.seeded
  · exact absurd hall (State.not_allHalted h.waiting)

/-- A step of a stuck ring only moves to another engine, so the ring stays stuck. -/
theorem State.Stuck.step (h : s.Stuck) : ∃ t, step s = .next t ∧ t.Stuck ∧ t.stations = s.stations ∧ t.last = s.last := by
  obtain ⟨hstations, hlast, hw, -⟩ := s.driveAfter_keeps
  refine ⟨s.driveAfter, step_of_seeded h.ring h.seeded h.engineTurn, ?_, hstations, hlast⟩
  exact ⟨hw.trans h.ring, h.driveAfter_ost, hstations ▸ h.idle, hstations ▸ h.waiting⟩

theorem State.Stuck.run (n : Nat) (h : s.Stuck) :
    ∃ t, Host.Core.run Sys2Proof.core n s = .next t ∧ t.ost = .seeded ∧ t.stations = s.stations ∧ t.last = s.last := by
  induction n generalizing s with
  | zero => exact ⟨s, core_run_zero s, h.seeded, rfl, rfl⟩
  | succ n ih =>
    obtain ⟨u, hstep, hu, hstations, hlast⟩ := h.step
    obtain ⟨t, hrun, ho, hstations', hlast'⟩ := ih hu
    exact ⟨t, core_run_cons hstep hrun, ho, hstations'.trans hstations, hlast'.trans hlast⟩

/-! ## Drive as steps of the machine -/

/-- What a `run` in a seeded ring returns in, and Drive's bookkeeping after it, some number of steps reaches. -/
theorem State.run_reaches {fuel : Nat} {r : RunResult} (hring : s.wiring = .ring) (ho : s.ost = .seeded)
    (h : s.run fuel = some (r, t)) :
    (∃ n, Host.Core.run Sys2Proof.core n s = .next t.driveAfter) ∧ t.wiring = .ring ∧ t.ost = .seeded := by
  rcases State.run_cases h with ⟨rfl, -, hturn, -⟩ | ⟨hgo, hloop⟩
  · exact ⟨⟨1, core_run_snoc (core_run_zero t) (step_of_seeded hring ho hturn)⟩, hring, ho⟩
  · obtain ⟨n, u, hrun, hw, hou, hu, hlast⟩ := State.runLoop_reaches (.inr ⟨hring, ho⟩) hgo hloop
    have hstep := step_of_seeded (hw.trans hring) (hou.trans ho) ((engineTurn_of_runnable hu).trans hlast)
    obtain ⟨-, -, hw', ho'⟩ := fetchExec_others hlast
    exact ⟨⟨n + 1, core_run_snoc hrun hstep⟩, hw'.trans (hw.trans hring), ho'.trans (hou.trans ho)⟩

theorem State.runLoop_after_length {fuel : Nat} {r : RunResult} (h : State.runLoop fuel s = some (r, t)) :
    t.after.length = s.after.length := by
  induction fuel generalizing s with
  | zero => cases h
  | succ k ih =>
    obtain ⟨u, hu, hcase⟩ := State.runLoop_cases h
    obtain ⟨-, hafter, -⟩ := fetchExec_others hu
    have hlength : u.after.length = s.after.length := by simpa using congrArg List.length hafter
    rcases hcase with ⟨-, hloop⟩ | ⟨rfl, -⟩
    · exact (ih hloop).trans hlength
    · exact hlength

theorem State.run_after_length {fuel : Nat} {r : RunResult} (h : s.run fuel = some (r, t)) :
    t.after.length = s.after.length := by
  rcases State.run_cases h with ⟨rfl, -⟩ | ⟨-, hloop⟩
  · rfl
  · exact State.runLoop_after_length hloop

/-- How a round, and Drive, leave the ring (45_orchestrator.md R134, R135, R137): seeded for another round, Done with every engine Halted,
or Failed at a faulted engine. -/
structure State.RoundEnd (t : State) : Prop where
  ring : t.wiring = .ring
  done : t.ost = .done → ∀ x ∈ t.stations, x.st = .halted
  failed : t.ost = .failed → t.st = .faulted

theorem State.roundEnd_setOst_failed (hring : t.wiring = .ring) (hst : t.st = .faulted) : (t.setOst .failed).RoundEnd :=
  ⟨hring, by simp, fun _ => hst⟩

theorem State.roundEnd_endRound (hring : t.wiring = .ring) (ho : t.ost = .seeded) : t.endRound.RoundEnd := by
  by_cases hall : t.allHalted = true
  · rw [State.endRound_of_allHalted hall]
    exact ⟨hring, fun _ => State.allHalted_iff.1 hall, by simp⟩
  · rw [State.endRound_of_not_allHalted hall]
    obtain ⟨-, hkept, hw, -⟩ := t.toFirst_rest
    have hseeded := hkept.trans ho
    exact ⟨hw.trans hring, by simp [hseeded], by simp [hseeded]⟩

theorem State.Answers.returned (h : t.Answers .ok) : t.st = .halted ∨ t.st = .blockedOnInput := by
  rcases h with ⟨-, hst⟩ | ⟨hfault, -⟩
  · exact hst
  · cases hfault

theorem State.Answers.faulted {flt : Option FaultRecord} (h : t.Answers (.fault flt)) : t.st = .faulted := by
  rcases h with ⟨hok, -⟩ | ⟨-, hst⟩
  · cases hok
  · exact hst

/-- A `run` that returns a fault ends the round at its engine (45_orchestrator.md R137). -/
theorem State.run_fault_reaches {fuel : Nat} {flt : Option FaultRecord} (hring : s.wiring = .ring) (ho : s.ost = .seeded)
    (h : s.run fuel = some (.fault flt, t)) :
    (∃ n, Host.Core.run Sys2Proof.core n s = .next (t.setOst .failed)) ∧ (t.setOst .failed).RoundEnd := by
  obtain ⟨hn, hw, -⟩ := State.run_reaches hring ho h
  have hst := (State.run_answers h).faulted
  rw [State.driveAfter_of_faulted hst] at hn
  exact ⟨hn, State.roundEnd_setOst_failed hw hst⟩

/-- A `run` that returns Ok is followed by the next engine's, or the end of the round. -/
theorem State.run_ok_reaches {fuel : Nat} (hring : s.wiring = .ring) (ho : s.ost = .seeded) (h : s.run fuel = some (.ok, t)) :
    (∃ n, Host.Core.run Sys2Proof.core n s = .next t.runReturned) ∧ t.wiring = .ring ∧ t.ost = .seeded := by
  obtain ⟨hn, hrest⟩ := State.run_reaches hring ho h
  rw [State.driveAfter_of_returned (State.run_answers h).returned] at hn
  exact ⟨hn, hrest⟩

/-- The rest of a round is steps of the machine, by induction on the engines left. -/
theorem State.roundFrom_reaches {fuel left : Nat} (hring : s.wiring = .ring) (ho : s.ost = .seeded)
    (hleft : s.after.length = left) (h : State.roundFrom fuel left s = some t) :
    (∃ n, Host.Core.run Sys2Proof.core n s = .next t) ∧ t.RoundEnd := by
  induction left generalizing s with
  | zero =>
    rw [State.roundFrom] at h
    split at h
    next => cases h
    next flt u hrun =>
      cases h
      exact State.run_fault_reaches hring ho hrun
    next u hrun =>
      cases h
      obtain ⟨hn, hw, hou⟩ := State.run_ok_reaches hring ho hrun
      have hnil : u.after = [] := List.length_eq_zero_iff.1 ((State.run_after_length hrun).trans hleft)
      rw [State.runReturned_of_nil hnil] at hn
      exact ⟨hn, State.roundEnd_endRound hw hou⟩
  | succ left ih =>
    rw [State.roundFrom] at h
    split at h
    next => cases h
    next flt u hrun =>
      cases h
      exact State.run_fault_reaches hring ho hrun
    next u hrun =>
      obtain ⟨⟨n, hn⟩, hw, hou⟩ := State.run_ok_reaches hring ho hrun
      have hlength := (State.run_after_length hrun).trans hleft
      have hne : u.after ≠ [] := fun hnil => by simp [hnil] at hlength
      obtain ⟨-, hou', hw', hlength'⟩ := State.runReturned_of_ne_nil hne
      obtain ⟨⟨m, hm⟩, hend⟩ := ih (hw'.trans hw) (hou'.trans hou) (by omega) h
      exact ⟨⟨n + m, (core_run_add n m hn).trans hm⟩, hend⟩

theorem State.round_reaches {fuel : Nat} (hring : s.wiring = .ring) (ho : s.ost = .seeded) (h : s.round fuel = some t) :
    (∃ n, Host.Core.run Sys2Proof.core n s = .next t) ∧ t.RoundEnd :=
  State.roundFrom_reaches hring ho rfl h

/-- What Drive answers agrees with the ring it leaves (45_orchestrator.md R136, R137). -/
def State.DriveAnswers (t : State) (r : DriveResult) : Prop :=
  (r = .ok t.last ∧ t.ost = .done ∧ ∀ x ∈ t.stations, x.st = .halted) ∨
    (r = .fault t.index t.flt ∧ t.ost = .failed ∧ t.st = .faulted)

/-- Drive is steps of the machine, by induction on the rounds. -/
theorem State.drive_reaches {fuel rounds : Nat} {r : DriveResult} (hring : s.wiring = .ring) (ho : s.ost = .seeded)
    (h : State.drive fuel rounds s = some (r, t)) :
    (∃ n, Host.Core.run Sys2Proof.core n s = .next t) ∧ t.DriveAnswers r := by
  induction rounds generalizing s with
  | zero => cases h
  | succ k ih =>
    rw [State.drive] at h
    split at h
    next => cases h
    next u hround =>
      obtain ⟨⟨n, hn⟩, hend⟩ := State.round_reaches hring ho hround
      split at h
      next hou =>
        obtain ⟨⟨m, hm⟩, hanswers⟩ := ih hend.ring hou h
        exact ⟨⟨n + m, (core_run_add n m hn).trans hm⟩, hanswers⟩
      next hou =>
        cases h
        exact ⟨⟨n, hn⟩, .inl ⟨rfl, hou, hend.done hou⟩⟩
      next hou =>
        cases h
        exact ⟨⟨n, hn⟩, .inr ⟨rfl, hou, hend.failed hou⟩⟩

end Sys2Proof.Machine

namespace Sys2Proof

open Machine

/-- Settles O55: the step is the turn and `driveAfter`, which stays, goes on to the next index, or ends the round. -/
theorem ringOrderAndStopTest : Obligations.RingOrderAndStopTest := by
  intro s t u hring ho hturn hstep
  cases (step_of_seeded hring ho hturn).symm.trans hstep
  obtain ⟨-, -, -, hou⟩ := engineTurn_others hturn
  have hseeded : u.ost = .seeded := hou.trans ho
  have hnil := engineTurn_after_eq_nil_iff hturn
  obtain ⟨hstations, hlast, -⟩ := u.driveAfter_keeps
  refine ⟨State.driveAfter_of_ready, fun hst => ⟨hstations, hlast, ?_⟩⟩
  rw [State.driveAfter_of_returned hst]
  refine ⟨fun hafter => ?next, fun hafter hsome => ?first, fun hafter hall => ?done⟩
  case next =>
    obtain ⟨hindex, hkept, -⟩ := State.runReturned_of_ne_nil (fun h => hafter (hnil.1 h))
    exact ⟨by rw [hindex, engineTurn_index hturn], hkept.trans hseeded⟩
  case first =>
    rw [State.runReturned_of_nil (hnil.2 hafter), State.endRound_of_not_allHalted (State.not_allHalted hsome)]
    obtain ⟨-, hkept, -⟩ := u.toFirst_rest
    exact ⟨u.toFirst_index, hkept.trans hseeded⟩
  case done =>
    rw [State.runReturned_of_nil (hnil.2 hafter), State.endRound_of_allHalted (State.allHalted_iff.2 hall), State.setOst_ost]

/-- Settles O56: a seeded ring becomes Failed only by a fault its current engine takes in this step, which leaves a record. -/
theorem ringFaultStopsDrive : Obligations.RingFaultStopsDrive := by
  intro s t hinv hring ho hstep hfailed
  obtain ⟨u, hturn⟩ := engineTurn_next s
  cases (step_of_seeded hring ho hturn).symm.trans hstep
  obtain ⟨-, -, -, hou⟩ := engineTurn_others hturn
  obtain ⟨hst, hdrive⟩ := State.driveAfter_failed (hou.trans ho) hfailed
  obtain ⟨f, rfl⟩ := engineTurn_faulted hinv hring ho hturn hst
  rw [hdrive]
  exact ⟨rfl, rfl, rfl, rfl, _, rfl, step_of_failed hring rfl rfl⟩

/-- Settles O57: a stuck ring steps to a stuck ring, by induction on the number of steps. -/
theorem stuckRingHangs : Obligations.StuckRingHangs := fun _ hring ho hidle hwaiting n =>
  State.Stuck.run n ⟨hring, ho, hidle, hwaiting⟩

/-- Settles O58: a `run` call is steps, so a round is, so Drive is; and a round ends Done or Failed as Drive answers. -/
theorem driveIsIteratedStep : Obligations.DriveIsIteratedStep := fun _ _ _ _ _ hring ho h => State.drive_reaches hring ho h

end Sys2Proof
end
